-- ==== Sys2Proof/Word.lean ====
section
/-! DEFINITION. The word and byte types of the toy-simulator CPU core (spec/00_scope.md R8, R11). -/

namespace Sys2Proof

/-- A 32-bit unsigned value: a register, an address, the pc, an instruction word (R8, R11). -/
abbrev Word := BitVec 32

/-- The addressable unit of memory (R8). -/
abbrev Byte := BitVec 8

end Sys2Proof
end

