-- ==== Sys2Proof/Syntax.lean ====
section
/-! DEFINITION. The instructions, one constructor per row of spec/opcode_table.json, in its order.
Operands carry the names of spec/30_encoding.md R93. A register operand is an index into the register
file, a plain number that WellFormed bounds by 32, so that the index check the spec requires of every
handler (R33) has something to check (DESIGN CHOICE, notes/assumptions/8.md). An immediate is the field's
own bits. Bits that no field uses (R96) leave no trace in an instruction. -/

namespace Sys2Proof

/-- The 14 operations of R2. -/
inductive Instr where
  /-- J index (R120). -/
  | j (index : BitVec 26)
  /-- SYSCALL code (R140). -/
  | syscall (code : BitVec 18)
  /-- STP base, rt1, rt2, off11 (R150). -/
  | stp (base rt1 rt2 : Nat) (off11 : BitVec 11)
  /-- RORI rd, rs, imm5 (R175). -/
  | rori (rd rs : Nat) (imm5 : BitVec 5)
  /-- SLTI rs (source), rt (destination), imm16 (R176). -/
  | slti (rs rt : Nat) (imm16 : BitVec 16)
  /-- ST base, rt, imm16 (R153). -/
  | st (base rt : Nat) (imm16 : BitVec 16)
  /-- BDEP rd, rs1 (value), rs2 (mask): destination first (R94, R177). -/
  | bdep (rd rs1 rs2 : Nat)
  /-- CLS rd, rs: destination first (R94, R178). -/
  | cls (rd rs : Nat)
  /-- ADD rs, rt, rd: destination last (R94, R179). -/
  | add (rs rt rd : Nat)
  /-- BNE rs, rt, imm16 (R121). -/
  | bne (rs rt : Nat) (imm16 : BitVec 16)
  /-- BEQ rs, rt, imm16 (R122). -/
  | beq (rs rt : Nat) (imm16 : BitVec 16)
  /-- LD base, rt (destination), imm16 (R156). -/
  | ld (base rt : Nat) (imm16 : BitVec 16)
  /-- AND rs, rt, rd: destination last (R94, R180). -/
  | and (rs rt rd : Nat)
  /-- SSAT rd, rs, N = imm5 (R181). -/
  | ssat (rd rs : Nat) (imm5 : BitVec 5)
deriving DecidableEq, Repr

/-- The register operands, in the order the handler checks them (the "check" line of each rule of
spec/41_control.md to 44_alu.md). -/
def Instr.registers : Instr → List Nat
  | .j _ => []
  | .syscall _ => []
  | .stp base rt1 rt2 _ => [base, rt1, rt2]
  | .rori rd rs _ => [rd, rs]
  | .slti rs rt _ => [rs, rt]
  | .st base rt _ => [base, rt]
  | .bdep rd rs1 rs2 => [rd, rs1, rs2]
  | .cls rd rs => [rd, rs]
  | .add rs rt rd => [rs, rt, rd]
  | .bne rs rt _ => [rs, rt]
  | .beq rs rt _ => [rs, rt]
  | .ld base rt _ => [base, rt]
  | .and rs rt rd => [rs, rt, rd]
  | .ssat rd rs _ => [rd, rs]

end Sys2Proof
end

