-- ==== Sys2Proof/WellFormed.lean ====
section
/-! DEFINITION. Which instructions an instruction word can hold: every register operand fits its 5-bit
field (spec/30_encoding.md R92). Immediates fit by their types. -/

namespace Sys2Proof

/-- A register index the register file has (R22). -/
abbrev RegIndexOk (i : Nat) : Prop := i < 32

/-- Every register operand is an index below 32 (R22, R92). -/
def Instr.wellFormed (i : Instr) : Bool := i.registers.all fun r => decide (RegIndexOk r)

/-- `Instr.wellFormed` as a proposition. -/
abbrev WellFormed (i : Instr) : Prop := i.wellFormed = true

end Sys2Proof
end

