-- ==== Sys2Proof/Decode.lean ====
section
/-! DEFINITION. Decoding (spec/30_encoding.md R90 to R107) and, after it, encoding. A word decodes to
one instruction or is rejected by the name of its diagnostic; what UNKNOWN does to the core is in
Machine/Ops.lean (R100). Byte order is R62 of spec/20_memory.md. -/

namespace Sys2Proof

/-- Why a word decodes to UNKNOWN (R100), with the field that was not in its table. -/
inductive Unknown where
  /-- The primary opcode is not 0 and not in R101's table. -/
  | opcode (op : BitVec 6)
  /-- The primary opcode is 0 and the function field is not in R102's table. -/
  | funct (f : BitVec 6)
deriving DecidableEq, Repr

/-- Why a byte sequence gives no instruction. -/
inductive ByteReject where
  /-- Fewer than the 4 bytes of one instruction (R90). -/
  | tooShort
  /-- The first word is UNKNOWN. -/
  | unknown (u : Unknown)
deriving DecidableEq, Repr

/-! ## Byte order (R62) -/

/-- The bytes of a word at increasing addresses: little-endian (R62). -/
def wordBytes (w : Word) : List Byte :=
  [w.extractLsb' 0 8, w.extractLsb' 8 8, w.extractLsb' 16 8, w.extractLsb' 24 8]

/-- The word whose bytes at increasing addresses are `b0` to `b3` (R62, R63). -/
def wordOfBytes (b0 b1 b2 b3 : Byte) : Word := b3 ++ b2 ++ b1 ++ b0

/-! ## Fields (R92) -/

/-- `op` = w[31:26]. -/
def fieldOp (w : Word) : BitVec 6 := w.extractLsb' 26 6
/-- `A` = w[25:21], a register index. -/
def fieldA (w : Word) : Nat := (w.extractLsb' 21 5).toNat
/-- `B` = w[20:16], a register index. -/
def fieldB (w : Word) : Nat := (w.extractLsb' 16 5).toNat
/-- `C` = w[15:11], as a register index. -/
def fieldC (w : Word) : Nat := (w.extractLsb' 11 5).toNat
/-- `C` = w[15:11], as a 5-bit immediate (RORI, SSAT). -/
def fieldImm5 (w : Word) : BitVec 5 := w.extractLsb' 11 5
/-- `imm16` = w[15:0]. -/
def fieldImm16 (w : Word) : BitVec 16 := w.extractLsb' 0 16
/-- `off11` = w[10:0]. -/
def fieldOff11 (w : Word) : BitVec 11 := w.extractLsb' 0 11
/-- `index` = w[25:0]. -/
def fieldIndex (w : Word) : BitVec 26 := w.extractLsb' 0 26
/-- `code` = w[23:6]. -/
def fieldCode (w : Word) : BitVec 18 := w.extractLsb' 6 18
/-- `funct` = w[5:0]. -/
def fieldFunct (w : Word) : BitVec 6 := w.extractLsb' 0 6

/-! ## The decoder (R100) -/

/-- The function-field table, only under opcode 0 (R102), with the operand roles of R93 and R94. -/
def decodeFunct (w : Word) : Except Unknown Instr :=
  if fieldFunct w = 0x2B#6 then .ok (.add (fieldA w) (fieldB w) (fieldC w))
  else if fieldFunct w = 0x2D#6 then .ok (.and (fieldA w) (fieldB w) (fieldC w))
  else if fieldFunct w = 0x39#6 then .ok (.cls (fieldA w) (fieldB w))
  else if fieldFunct w = 0x3A#6 then .ok (.bdep (fieldA w) (fieldB w) (fieldC w))
  else if fieldFunct w = 0x3E#6 then .ok (.syscall (fieldCode w))
  else .error (.funct (fieldFunct w))

/-- The primary-opcode table (R101), with the operand roles of R93. -/
def decodePrimary (w : Word) : Except Unknown Instr :=
  if fieldOp w = 0x02#6 then .ok (.beq (fieldA w) (fieldB w) (fieldImm16 w))
  else if fieldOp w = 0x03#6 then .ok (.st (fieldA w) (fieldB w) (fieldImm16 w))
  else if fieldOp w = 0x08#6 then .ok (.stp (fieldA w) (fieldB w) (fieldC w) (fieldOff11 w))
  else if fieldOp w = 0x0F#6 then .ok (.ssat (fieldA w) (fieldB w) (fieldImm5 w))
  else if fieldOp w = 0x16#6 then .ok (.slti (fieldA w) (fieldB w) (fieldImm16 w))
  else if fieldOp w = 0x1A#6 then .ok (.ld (fieldA w) (fieldB w) (fieldImm16 w))
  else if fieldOp w = 0x24#6 then .ok (.bne (fieldA w) (fieldB w) (fieldImm16 w))
  else if fieldOp w = 0x27#6 then .ok (.j (fieldIndex w))
  else if fieldOp w = 0x3B#6 then .ok (.rori (fieldA w) (fieldB w) (fieldImm5 w))
  else .error (.opcode (fieldOp w))

/-- The decoder of R100: the function table under opcode 0, else the primary table. -/
def decodeWord (w : Word) : Except Unknown Instr :=
  if fieldOp w = 0#6 then decodeFunct w else decodePrimary w

/-- Decoding from bytes at increasing addresses: the instruction and the bytes after it (R90, R91). -/
def decodeBytes : List Byte → Except ByteReject (Instr × List Byte)
  | b0 :: b1 :: b2 :: b3 :: rest =>
    match decodeWord (wordOfBytes b0 b1 b2 b3) with
    | .ok i => .ok (i, rest)
    | .error u => .error (.unknown u)
  | _ => .error .tooShort

/-- The word that the opcode table's numbering calls `w`, of `nbits` bits: one instruction is one
32-bit word (R90), and the bits above `nbits` are 0. -/
def tableWord (nbits w : Nat) : Word := BitVec.ofNat 32 (w % 2 ^ nbits)

/-- What the decoder reads from the bytes of an instruction whose bits are `w`. -/
def decodeTableWord (nbits w : Nat) : Option Instr :=
  match decodeBytes (wordBytes (tableWord nbits w)) with
  | .ok (i, _) => some i
  | .error _ => none

/-! ## The encoder (R92, R93, R101, R102)

Bits that no field uses are written as 0 (DESIGN CHOICE, notes/assumptions/9.md; R96 says they are ignored). -/

/-- The 5 bits of a register operand. -/
def regField (r : Nat) : BitVec 5 := BitVec.ofNat 5 r

/-- Format R: op = 0, A, B, C, bits 10..6 zero, funct. -/
def encodeR (a b c : Nat) (funct : BitVec 6) : Word :=
  0#6 ++ regField a ++ regField b ++ regField c ++ 0#5 ++ funct

/-- Format I16: op, A, B, imm16. -/
def encodeI16 (op : BitVec 6) (a b : Nat) (imm16 : BitVec 16) : Word :=
  op ++ regField a ++ regField b ++ imm16

/-- Format I5: op, A, B, imm5, bits 10..0 zero. -/
def encodeI5 (op : BitVec 6) (a b : Nat) (imm5 : BitVec 5) : Word :=
  op ++ regField a ++ regField b ++ imm5 ++ 0#11

/-- Format J: op, index. -/
def encodeJ (op : BitVec 6) (index : BitVec 26) : Word := op ++ index

/-- Format SYS: op = 0, bits 25..24 zero, code, funct. -/
def encodeSys (code : BitVec 18) (funct : BitVec 6) : Word := 0#6 ++ 0#2 ++ code ++ funct

/-- Format P: op, A, B, C, off11. -/
def encodeP (op : BitVec 6) (a b c : Nat) (off11 : BitVec 11) : Word :=
  op ++ regField a ++ regField b ++ regField c ++ off11

/-- The word of a well-formed instruction. -/
def encode : Instr → Word
  | .j index => encodeJ 0x27#6 index
  | .syscall code => encodeSys code 0x3E#6
  | .stp base rt1 rt2 off11 => encodeP 0x08#6 base rt1 rt2 off11
  | .rori rd rs imm5 => encodeI5 0x3B#6 rd rs imm5
  | .slti rs rt imm16 => encodeI16 0x16#6 rs rt imm16
  | .st base rt imm16 => encodeI16 0x03#6 base rt imm16
  | .bdep rd rs1 rs2 => encodeR rd rs1 rs2 0x3A#6
  | .cls rd rs => encodeR rd rs 0 0x39#6
  | .add rs rt rd => encodeR rs rt rd 0x2B#6
  | .bne rs rt imm16 => encodeI16 0x24#6 rs rt imm16
  | .beq rs rt imm16 => encodeI16 0x02#6 rs rt imm16
  | .ld base rt imm16 => encodeI16 0x1A#6 base rt imm16
  | .and rs rt rd => encodeR rs rt rd 0x2D#6
  | .ssat rd rs imm5 => encodeI5 0x0F#6 rd rs imm5

/-- The bytes of a well-formed instruction at increasing addresses. -/
def encodeBytes (i : Instr) : List Byte := wordBytes (encode i)

end Sys2Proof
end

