-- ==== Sys2Proof/Config.lean ====
section
/-! DEFINITION. The parameters the source leaves open and the spec says a model takes as arguments
(spec/00_scope.md R9). They are plain data: a field of State holds them, so that a statement over all
states holds for every choice (DESIGN CHOICE, notes/assumptions/1.md). -/

namespace Sys2Proof

/-- `OFFSET_EXT`: how LD, ST and STP extend their offset fields (R9, R159, D6). -/
inductive OffsetExt where
  | zext
  | sext
deriving DecidableEq, Repr

/-- `ALIGN_CHECK_LDST`, `ALIGN_CHECK_STP`: the value an alignment check tests (R9, R160, D7). -/
inductive AlignCheck where
  | address
  | offset
deriving DecidableEq, Repr

/-- The four parameters of R9 on which a rule depends, and one for the point on which R29 and R230 differ. -/
structure Params where
  /-- `HALT_COMMITS_PC` (R34, D3): whether a halting step commits the pc. -/
  haltCommitsPc : Bool
  /-- `OFFSET_EXT` (R159, D6). -/
  offsetExt : OffsetExt
  /-- `ALIGN_CHECK_LDST` (R160, D7). -/
  alignCheckLdst : AlignCheck
  /-- `ALIGN_CHECK_STP` (R160, D7). -/
  alignCheckStp : AlignCheck
  /-- Whether reset() clears the refusal mark: R230's table says that it is clear, R29 that no later
  operation clears it. Not of R9 (DESIGN CHOICE, notes/assumptions/7.md). -/
  resetClearsMark : Bool
deriving DecidableEq, Repr

/-- The column "default" of R9's table, and for the mark R230's table (DESIGN CHOICE,
notes/assumptions/1.md to 5.md and 7.md). -/
def Params.default : Params :=
  { haltCommitsPc := true, offsetExt := .zext, alignCheckLdst := .address, alignCheckStp := .offset,
    resetClearsMark := true }

end Sys2Proof
end

