-- ==== Sys2Proof/Machine/State.lean ====
section
/-! DEFINITION. Everything the spec gives the machine, as plain data (spec/10_state.md R20 to R30, R38 to
R40), and the reset state (spec/70_reset_and_hazards.md R230). -/

namespace Sys2Proof.Machine

/-- Why the halted flag was set (spec/60_exceptions.md R201). Model bookkeeping: no program can read it. -/
inductive HaltReason where
  /-- Code 0: SYSCALL with code 0. -/
  | syscallExit
  /-- Code 1: `op` not 0 and not in the primary table. -/
  | unknownOpcode
  /-- Code 2: `op = 0` and `funct` not in the function table. -/
  | unknownFunct
  /-- Code 3: the value an LD, ST or STP checks is not 4-aligned. -/
  | misaligned
  /-- Code 4: a register index not below 32; no instruction word holds one. -/
  | badRegister
deriving DecidableEq, Repr

/-- A diagnostic's kind and info fields (R28, R202); its text is not modelled. -/
inductive Diag where
  | unknownOpcode (pc word : Word) (op : BitVec 6)
  | unknownFunct (pc word : Word) (funct : BitVec 6)
  | misaligned (pc value : Word)
  | badRegister (pc : Word) (index : Nat)
  | oorRead (addr : Word)
  | unhandledSyscall (pc : Word) (code : BitVec 18)
deriving DecidableEq, Repr

/-- One entry of the ordered output trace (R27, R28). -/
inductive Event where
  /-- SYSCALL code 1: the value of x[0]. -/
  | console (v : Word)
  | diag (d : Diag)
deriving DecidableEq, Repr

/-- Why a step stops with a fault: never. The core has no traps (spec/60_exceptions.md R200); each of its
errors sets the halted flag or is tolerated, and both are next states. Nothing raises a fault, which is
safe: no claim can rest on one. -/
inductive Fault where
deriving DecidableEq, Repr

/-- Why the model gives a step no meaning. -/
inductive Refusal where
  /-- Raised by exec's arm of an instruction that has no meaning yet. Safe: nothing can be proved of it. -/
  | notModelled (mnemonic : String)
  /-- TOP_OF_MEMORY (spec/20_memory.md R66, 60_exceptions.md R204): a fetch, LD or ST above 0xFFFFFFFC or
  an STP above 0xFFFFFFF8. Raised by the memory primitives and by STP. Safe: the spec itself refuses. -/
  | topOfMemory
  /-- LOAD_PAST_TOP (R44, R204): the host loads past 0xFFFFFFFF. Raised by the host's load. Safe. -/
  | loadPastTop
deriving DecidableEq, Repr

/-- What an unlisted address below the memory size reads as: the zero byte of every growth (R64, R44, R79). -/
abbrev unlistedByte : Byte := 0#8

/-- The growable byte memory (R30): the bytes 0 .. size-1 exist; those that are not zero are listed. -/
structure Memory where
  /-- `mem_size` (R30, R40). -/
  size : Nat
  /-- The listed bytes, addresses strictly rising. -/
  cells : List Host.Cell
deriving DecidableEq, Repr

/-- The canonical form: addresses strictly rising, every listed byte exists and differs from what an
unlisted one reads as, and the size is at most 2^32 (R30, R61). -/
abbrev Memory.wf (m : Memory) : Prop :=
  m.cells.Pairwise (fun c d => c.1 < d.1) ∧
  (∀ c ∈ m.cells, c.1 < m.size ∧ c.2 ≠ unlistedByte) ∧
  m.size ≤ 2 ^ 32

/-- The machine state: R20's record, the bookkeeping of R26 to R29, and the parameters of R9. -/
structure State where
  /-- x[0] .. x[31] (R21). -/
  regs : Vector Word 32
  /-- The program counter (R24). -/
  pc : Word
  /-- The halted flag (R25). -/
  halted : Bool
  /-- `mem_size` and the bytes below it (R30). -/
  mem : Memory
  /-- The halt reason (R26, R201). -/
  haltReason : Option HaltReason
  /-- Console and diagnostic events, oldest first (R27, R28). -/
  trace : List Event
  /-- The refusal mark (R29, R204). -/
  refusal : Option Refusal
  /-- The model's own field: the parameters of spec/00_scope.md R9 and the one of
  notes/assumptions/7.md (notes/assumptions/1.md). -/
  params : Params
deriving DecidableEq, Repr

/-- The state at construction, which is the state after reset with empty channels (R230, D25). -/
def State.reset : State :=
  { regs := Vector.replicate 32 0#32
    pc := 0#32
    halted := false
    mem := { size := 0, cells := [] }
    haltReason := none
    trace := []
    refusal := none
    params := Params.default }

end Sys2Proof.Machine
end

