-- ==== Sys2Proof/Machine/Flags.lean ====
section
/-! DEFINITION. The flags. The core has no condition codes: halted is its only flag and no instruction
has a flag side effect besides halting (spec/10_state.md R25, R38). -/

namespace Sys2Proof.Machine

/-- The code the spec gives each halt reason (spec/60_exceptions.md R201). -/
def haltCode : HaltReason → Nat
  | .syscallExit => 0
  | .unknownOpcode => 1
  | .unknownFunct => 2
  | .misaligned => 3
  | .badRegister => 4

/-- `halt(reason)`: set the flag and record the reason; nothing else (R26). -/
def setHalted (r : HaltReason) (s : State) : State :=
  { s with halted := true, haltReason := some r }

end Sys2Proof.Machine
end

