-- ==== Sys2Proof/Machine/Operands.lean ====
section
/-! DEFINITION. How operand fields become operands (spec/30_encoding.md R95): extensions, the one
addressing mode, the value an alignment check tests, branch and jump targets. -/

namespace Sys2Proof.Machine

/-! ## Registers as operands (R12, R21, R22) -/

/-- The register file's `get(idx)`: no value for an index it does not have (R22). -/
def regGet (rf : Vector Word 32) (i : Nat) : Option Word := rf[i]?

/-- The register file's `set(idx, value)`: rejected for an index it does not have (R22). -/
def regSet (rf : Vector Word 32) (i : Nat) (v : Word) : Option (Vector Word 32) :=
  if h : i < 32 then some (rf.set i v h) else none

/-- `x[i]`, read only after the handler's index check (R12, R33). -/
def readReg (i : Nat) (s : State) : Word := (regGet s.regs i).getD 0#32

/-- `x[i] <- v`, written only after the handler's index check; a rejected write changes no register (R22). -/
def writeReg (i : Nat) (v : Word) (s : State) : State :=
  match regSet s.regs i v with
  | some rf => { s with regs := rf }
  | none => s

/-! ## Extensions (R13) -/

/-- `sext_16` (R13). -/
def sext16 (v : BitVec 16) : Word := v.signExtend 32

/-- `zext_16` (R13). -/
def zext16 (v : BitVec 16) : Word := v.setWidth 32

/-- `sext_11` (R13). -/
def sext11 (v : BitVec 11) : Word := v.signExtend 32

/-- `zext_11` (R13). -/
def zext11 (v : BitVec 11) : Word := v.setWidth 32

/-- `ext_16` of LD and ST: the extension `OFFSET_EXT` selects (R159). -/
def ext16 (e : OffsetExt) (v : BitVec 16) : Word :=
  match e with
  | .zext => zext16 v
  | .sext => sext16 v

/-- `ext_11` of STP: the extension `OFFSET_EXT` selects (R159). -/
def ext11 (e : OffsetExt) (v : BitVec 11) : Word :=
  match e with
  | .zext => zext11 v
  | .sext => sext11 v

/-! ## The addressing mode (R159) and the alignment check (R160) -/

/-- The offset of an LD or ST. -/
def ldstOffset (imm16 : BitVec 16) (s : State) : Word := ext16 s.params.offsetExt imm16

/-- The offset of an STP. -/
def stpOffset (off11 : BitVec 11) (s : State) : Word := ext11 s.params.offsetExt off11

/-- `addr = x[base] + offset`, modulo 2^32 (R159). -/
def effAddr (base : Nat) (offset : Word) (s : State) : Word := readReg base s + offset

/-- The address of an LD or ST. -/
def ldstAddr (base : Nat) (imm16 : BitVec 16) (s : State) : Word := effAddr base (ldstOffset imm16 s) s

/-- The first address of an STP. -/
def stpAddr (base : Nat) (off11 : BitVec 11) (s : State) : Word := effAddr base (stpOffset off11 s) s

/-- The value an alignment check tests (R160). -/
def checkedValue (c : AlignCheck) (addr offset : Word) : Word :=
  match c with
  | .address => addr
  | .offset => offset

/-- The value an LD or ST checks. -/
def ldstChecked (base : Nat) (imm16 : BitVec 16) (s : State) : Word :=
  checkedValue s.params.alignCheckLdst (ldstAddr base imm16 s) (ldstOffset imm16 s)

/-- The value an STP checks. -/
def stpChecked (base : Nat) (off11 : BitVec 11) (s : State) : Word :=
  checkedValue s.params.alignCheckStp (stpAddr base off11 s) (stpOffset off11 s)

/-- Bits 1..0 are both 0 (R160). -/
def aligned4 (v : Word) : Bool := v.extractLsb' 0 2 == 0#2

/-! ## Control-transfer targets -/

/-- The target of a taken BNE or BEQ: relative to the branch itself (R121, R122). -/
def branchTarget (pc0 : Word) (imm16 : BitVec 16) : Word := pc0 + (sext16 imm16 <<< 2)

/-- The target of a J: the region of the J itself (R120). -/
def jumpTarget (pc0 : Word) (index : BitVec 26) : Word :=
  (pc0 &&& 0xF0000000#32) ||| (index.setWidth 32 <<< 2)

end Sys2Proof.Machine
end

