-- ==== Sys2Proof/Machine/Ops.lean ====
section
/-! DEFINITION. The named operations every instruction is written over: the output channels, the commit
of the pc, halting (this core's only way of stopping, in the place of an exception: spec/60_exceptions.md
R200, R207), the register-index check, memory, and fetch. There is no return from a halt: only the host's
reset leaves it (R208; Machine/HostOps.lean). -/

namespace Sys2Proof.Machine

/-! ## Output channels (R27, R28) -/

/-- `emit(v)`: append a console event (R27). -/
def emit (v : Word) (s : State) : State := { s with trace := s.trace ++ [.console v] }

/-- `report(kind, info)`: append a diagnostic event, nothing else (R15, R28). -/
def report (d : Diag) (s : State) : State := { s with trace := s.trace ++ [.diag d] }

/-! ## Ending a step (R31, R34) -/

/-- The commit of `next_pc` at the end of a step: always, but on a halted core only under
`HALT_COMMITS_PC` (R31, R34). -/
def commitPc (next : Word) (s : State) : State :=
  if !s.halted || s.params.haltCommitsPc then { s with pc := next } else s

/-- The end of every handler that leaves `next_pc` at `pc0 + 4` (R32). -/
def advance (s : State) : State := commitPc (s.pc + 4#32) s

/-- Report a diagnostic where there is one. -/
def reportIf (d : Option Diag) (s : State) : State :=
  match d with
  | some d => report d s
  | none => s

/-- Taking a halt, the one operation for every cause (R201, R207): the diagnostic, the flag and the
reason, and the commit of the pc. Registers and memory are left as they are. -/
def takeHalt (r : HaltReason) (d : Option Diag) (s : State) : State :=
  advance (setHalted r (reportIf d s))

/-- What a word that decodes to UNKNOWN does (R100). -/
def takeUnknown (u : Unknown) (w : Word) (s : State) : State :=
  match u with
  | .opcode op => takeHalt .unknownOpcode (some (.unknownOpcode s.pc w op)) s
  | .funct f => takeHalt .unknownFunct (some (.unknownFunct s.pc w f)) s

/-! ## The register-index check (R33) -/

/-- The first index of the list that the register file does not have. -/
def badIndex (is : List Nat) : Option Nat := is.find? fun i => !decide (RegIndexOk i)

/-- Check the indices, then go on; a bad index halts before any access (R33). -/
def withRegs (is : List Nat) (s : State) (k : State → Host.Outcome State Fault Refusal) :
    Host.Outcome State Fault Refusal :=
  match badIndex is with
  | some i => .next (takeHalt .badRegister (some (.badRegister s.pc i)) s)
  | none => k s

/-! ## Alignment (R160, R161) -/

/-- Check one value for 4-byte alignment, then go on; a failed check halts before any access (R160). -/
def withAligned (v : Word) (s : State) (k : State → Host.Outcome State Fault Refusal) :
    Host.Outcome State Fault Refusal :=
  if aligned4 v then k s else .next (takeHalt .misaligned (some (.misaligned s.pc v)) s)

/-! ## Bytes of memory -/

/-- The byte listed at an address, else the unlisted one. -/
def cellsGet : List Host.Cell → Nat → Byte
  | [], _ => unlistedByte
  | c :: rest, a => if c.1 = a then c.2 else cellsGet rest a

/-- List a byte at an address in canonical form: an unlisted value removes the entry. -/
def cellsSet : List Host.Cell → Nat → Byte → List Host.Cell
  | [], a, b => if b = unlistedByte then [] else [(a, b)]
  | c :: rest, a, b =>
    if a < c.1 then (if b = unlistedByte then c :: rest else (a, b) :: c :: rest)
    else if a = c.1 then (if b = unlistedByte then rest else (a, b) :: rest)
    else c :: cellsSet rest a b

/-- List consecutive bytes from an address on. -/
def cellsSetMany (cells : List Host.Cell) (a : Nat) : List Byte → List Host.Cell
  | [] => cells
  | b :: bs => cellsSetMany (cellsSet cells a b) (a + 1) bs

/-- The model's read of one byte: `mem[a]`, for `a < mem_size` (R30). -/
def byteAt (m : Memory) (a : Nat) : Byte := cellsGet m.cells a

/-- Store consecutive bytes, growing the memory with zero bytes to exactly their end when that is
beyond the size (R64, R65; the host's load follows the same rule, R44). -/
def storeBytes (m : Memory) (a : Nat) (bs : List Byte) : Memory :=
  { size := max m.size (a + bs.length), cells := cellsSetMany m.cells a bs }

/-- The little-endian word at `a .. a+3` (R62). -/
def wordAt (m : Memory) (a : Nat) : Word :=
  wordOfBytes (byteAt m a) (byteAt m (a + 1)) (byteAt m (a + 2)) (byteAt m (a + 3))

/-! ## The memory primitives (R63, R64) -/

/-- An access at this address would pass the top of the address space (R66). -/
def pastTop (addr : Word) : Bool := 0xFFFFFFFC#32 < addr

/-- `MemRead(addr, 4)` (R63): refused past the top; out of range it reports and gives 0. -/
def memRead (addr : Word) (s : State) : Except Refusal (Word × State) :=
  if pastTop addr then .error .topOfMemory
  else if s.mem.size < addr.toNat + 4 then .ok (0#32, report (.oorRead addr) s)
  else .ok (wordAt s.mem addr.toNat, s)

/-- `MemWrite(addr, 4, v)` (R64): refused past the top; it grows the memory as needed. -/
def memWrite (addr v : Word) (s : State) : Except Refusal State :=
  if pastTop addr then .error .topOfMemory
  else .ok { s with mem := storeBytes s.mem addr.toNat (wordBytes v) }

/-- STP's refusal, before either of its writes (R150, D30). -/
def pairPastTop (addr : Word) : Bool := 0xFFFFFFF8#32 < addr

/-! ## Fetch (R70) -/

/-- Fetch is `MemRead(pc, 4)`, with no alignment check (R70). -/
def fetch (s : State) : Except Refusal (Word × State) := memRead s.pc s

/-! ## The step of the control unit (R31), over any meaning of the instructions -/

/-- A refused core takes no further step (R29); a halted one does nothing (R35); otherwise fetch,
decode, and run the instruction or halt on UNKNOWN (R31). -/
def controlStep (ex : Instr → State → Host.Outcome State Fault Refusal) (s : State) :
    Host.Outcome State Fault Refusal :=
  match s.refusal with
  | some r => .refused r
  | none =>
    if s.halted then .next s
    else
      match fetch s with
      | .error r => .refused r
      | .ok (w, s1) =>
        match decodeWord w with
        | .ok i => ex i s1
        | .error u => .next (takeUnknown u w s1)

/-- Where an instruction can be placed for the next step's fetch: at the pc, or at address 0 when no word
at the pc can be fetched (R66). -/
def placeAddr (s : State) : Word := if pastTop s.pc then 0#32 else s.pc

/-- The state with an instruction's bytes stored where the next step fetches, and with what would keep
that step from fetching cleared (notes/assumptions/10.md). -/
def placeWord (w : Word) (s : State) : State :=
  { s with
    pc := placeAddr s
    mem := storeBytes s.mem (placeAddr s).toNat (wordBytes w)
    halted := false
    haltReason := none
    refusal := none }

end Sys2Proof.Machine
end

