-- ==== Sys2Proof/Machine/Alu.lean ====
section
/-! DEFINITION. RORI, SLTI, BDEP, CLS, ADD, AND and SSAT, and the bit primitives they are defined by
(spec/44_alu.md). None touches memory, writes another register than its destination, or halts. -/

namespace Sys2Proof.Machine

/-! ## Primitives (R170 to R174) -/

/-- `rotate_right(v, n)` for n up to 31 (R170). -/
def rotateRight (v : Word) (n : Nat) : Word :=
  if n = 0 then v else (v >>> n) ||| (v <<< (32 - n))

/-- The loop of `deposit` (R172) after the mask positions below `n`: the result so far and how many bits
of the source are consumed. -/
def depositLoop (src mask : Word) : Nat → Word × Nat
  | 0 => (0#32, 0)
  | n + 1 =>
    let (res, k) := depositLoop src mask n
    if mask.getLsbD n then (if src.getLsbD k then res ||| BitVec.twoPow 32 n else res, k + 1) else (res, k)

/-- `deposit(src, mask)` (R172). -/
def deposit (src mask : Word) : Word := (depositLoop src mask 32).1

/-- The scan of `count_leading_sign` (R173) from bit `n - 1` down: how many bits equal `sign` before
the first that differs. -/
def signRun (x : Word) (sign : Bool) : Nat → Nat
  | 0 => 0
  | n + 1 => if x.getLsbD n = sign then signRun x sign n + 1 else 0

/-- `count_leading_sign(x)` (R173): the scan of bits 30 down to 0. -/
def countLeadingSign (x : Word) : Nat := signRun x (x.getLsbD 31) 31

/-- `saturate(v, N)` (R174): a copy for N = 0, else a clamp to N bits on mathematical integers. -/
def saturate (v : Word) (n : Nat) : Word :=
  if n = 0 then v
  else BitVec.ofInt 32 (min (max v.toInt (-(2 : Int) ^ (n - 1))) ((2 : Int) ^ (n - 1) - 1))

/-- The result of SLTI (R176): a signed comparison. -/
def setLess (a b : Word) : Word := if a.toInt < b.toInt then 1#32 else 0#32

/-! ## Instructions -/

/-- The end of an ALU instruction: write the destination and go on. -/
def finishAlu (rd : Nat) (v : Word) (s : State) : Host.Outcome State Fault Refusal :=
  .next (advance (writeReg rd v s))

/-- RORI (R175). -/
def execRori (rd rs : Nat) (imm5 : BitVec 5) (s : State) : Host.Outcome State Fault Refusal :=
  withRegs [rd, rs] s fun s => finishAlu rd (rotateRight (readReg rs s) imm5.toNat) s

/-- SLTI (R176). -/
def execSlti (rs rt : Nat) (imm16 : BitVec 16) (s : State) : Host.Outcome State Fault Refusal :=
  withRegs [rs, rt] s fun s => finishAlu rt (setLess (readReg rs s) (sext16 imm16)) s

/-- BDEP (R177). -/
def execBdep (rd rs1 rs2 : Nat) (s : State) : Host.Outcome State Fault Refusal :=
  withRegs [rd, rs1, rs2] s fun s => finishAlu rd (deposit (readReg rs1 s) (readReg rs2 s)) s

/-- CLS (R178). -/
def execCls (rd rs : Nat) (s : State) : Host.Outcome State Fault Refusal :=
  withRegs [rd, rs] s fun s => finishAlu rd (BitVec.ofNat 32 (countLeadingSign (readReg rs s))) s

/-- ADD (R179). -/
def execAdd (rs rt rd : Nat) (s : State) : Host.Outcome State Fault Refusal :=
  withRegs [rs, rt, rd] s fun s => finishAlu rd (readReg rs s + readReg rt s) s

/-- AND (R180). -/
def execAnd (rs rt rd : Nat) (s : State) : Host.Outcome State Fault Refusal :=
  withRegs [rs, rt, rd] s fun s => finishAlu rd (readReg rs s &&& readReg rt s) s

/-- SSAT (R181). -/
def execSsat (rd rs : Nat) (imm5 : BitVec 5) (s : State) : Host.Outcome State Fault Refusal :=
  withRegs [rd, rs] s fun s => finishAlu rd (saturate (readReg rs s) imm5.toNat) s

end Sys2Proof.Machine
end

