-- ==== Sys2Proof/Machine/Control.lean ====
section
/-! DEFINITION. J, BNE and BEQ (spec/41_control.md). No delay slot (R123); no target is checked (R125). -/

namespace Sys2Proof.Machine

/-- J (R120). -/
def execJ (index : BitVec 26) (s : State) : Host.Outcome State Fault Refusal :=
  .next (commitPc (jumpTarget s.pc index) s)

/-- A branch: to the target when taken, else to the next instruction (R121, R122). -/
def branch (taken : Bool) (imm16 : BitVec 16) (s : State) : State :=
  if taken then commitPc (branchTarget s.pc imm16) s else advance s

/-- BNE (R121). -/
def execBne (rs rt : Nat) (imm16 : BitVec 16) (s : State) : Host.Outcome State Fault Refusal :=
  withRegs [rs, rt] s fun s => .next (branch (readReg rs s != readReg rt s) imm16 s)

/-- BEQ (R122). -/
def execBeq (rs rt : Nat) (imm16 : BitVec 16) (s : State) : Host.Outcome State Fault Refusal :=
  withRegs [rs, rt] s fun s => .next (branch (readReg rs s == readReg rt s) imm16 s)

end Sys2Proof.Machine
end

