-- ==== Sys2Proof/Machine/LoadStore.lean ====
section
/-! DEFINITION. STP, ST and LD (spec/43_loadstore.md): register check, effective address, alignment
check, access, in this order (R161). -/

namespace Sys2Proof.Machine

/-- The end of a store: the memory's new state, or the refusal of R66. -/
def finishStore (r : Except Refusal State) : Host.Outcome State Fault Refusal :=
  match r with
  | .ok s => .next (advance s)
  | .error e => .refused e

/-- The end of a load: write the value read and go on, or the refusal of R66. -/
def finishLoad (rt : Nat) (r : Except Refusal (Word × State)) : Host.Outcome State Fault Refusal :=
  match r with
  | .ok (v, s) => .next (advance (writeReg rt v s))
  | .error e => .refused e

/-- The two writes of an STP, refused before either when the pair would pass the top (R150, D30). -/
def storePair (addr v1 v2 : Word) (s : State) : Except Refusal State :=
  if pairPastTop addr then .error .topOfMemory
  else
    match memWrite addr v1 s with
    | .ok s1 => memWrite (addr + 4#32) v2 s1
    | .error e => .error e

/-- STP (R150). -/
def execStp (base rt1 rt2 : Nat) (off11 : BitVec 11) (s : State) : Host.Outcome State Fault Refusal :=
  withRegs [base, rt1, rt2] s fun s =>
    withAligned (stpChecked base off11 s) s fun s =>
      finishStore (storePair (stpAddr base off11 s) (readReg rt1 s) (readReg rt2 s) s)

/-- ST (R153). -/
def execSt (base rt : Nat) (imm16 : BitVec 16) (s : State) : Host.Outcome State Fault Refusal :=
  withRegs [base, rt] s fun s =>
    withAligned (ldstChecked base imm16 s) s fun s =>
      finishStore (memWrite (ldstAddr base imm16 s) (readReg rt s) s)

/-- LD (R156). -/
def execLd (base rt : Nat) (imm16 : BitVec 16) (s : State) : Host.Outcome State Fault Refusal :=
  withRegs [base, rt] s fun s =>
    withAligned (ldstChecked base imm16 s) s fun s =>
      finishLoad rt (memRead (ldstAddr base imm16 s) s)

end Sys2Proof.Machine
end

