-- ==== Sys2Proof/Machine/System.lean ====
section
/-! DEFINITION. SYSCALL, the core's only system instruction (spec/42_system.md R140 to R142). -/

namespace Sys2Proof.Machine

/-- SYSCALL (R140): code 0 halts with no diagnostic, code 1 emits x[0], any other code is reported and
execution goes on. -/
def execSyscall (code : BitVec 18) (s : State) : Host.Outcome State Fault Refusal :=
  if code = 0#18 then .next (takeHalt .syscallExit none s)
  else if code = 1#18 then .next (advance (emit (readReg 0 s) s))
  else .next (advance (report (.unhandledSyscall s.pc code) s))

end Sys2Proof.Machine
end

