-- ==== Sys2Proof/Machine/Dispatch.lean ====
section
/-! DEFINITION. The dispatch to the instruction handlers: one arm per constructor (spec/10_state.md R31). -/

namespace Sys2Proof.Machine

def exec (i : Instr) (s : State) : Host.Outcome State Fault Refusal :=
  match i with
  | .j index => Sys2Proof.Machine.execJ index s
  | .syscall code => Sys2Proof.Machine.execSyscall code s
  | .stp base rt1 rt2 off11 => Sys2Proof.Machine.execStp base rt1 rt2 off11 s
  | .rori rd rs imm5 => Sys2Proof.Machine.execRori rd rs imm5 s
  | .slti rs rt imm16 => Sys2Proof.Machine.execSlti rs rt imm16 s
  | .st base rt imm16 => Sys2Proof.Machine.execSt base rt imm16 s
  | .bdep rd rs1 rs2 => Sys2Proof.Machine.execBdep rd rs1 rs2 s
  | .cls rd rs => Sys2Proof.Machine.execCls rd rs s
  | .add rs rt rd => Sys2Proof.Machine.execAdd rs rt rd s
  | .bne rs rt imm16 => Sys2Proof.Machine.execBne rs rt imm16 s
  | .beq rs rt imm16 => Sys2Proof.Machine.execBeq rs rt imm16 s
  | .ld base rt imm16 => Sys2Proof.Machine.execLd base rt imm16 s
  | .and rs rt rd => Sys2Proof.Machine.execAnd rs rt rd s
  | .ssat rd rs imm5 => Sys2Proof.Machine.execSsat rd rs imm5 s

end Sys2Proof.Machine
end

