-- ==== Sys2Proof/Machine/Step.lean ====
section
/-! DEFINITION. One step of the core (spec/10_state.md R31) and the placing of an instruction where the
next step fetches it. -/

namespace Sys2Proof.Machine

/-- One step: the control unit's cycle over the dispatch (R31). -/
def step (s : State) : Host.Outcome State Fault Refusal := controlStep exec s

/-- The state whose next step fetches and runs the instruction whose bits are `w`. -/
def State.withFetchWord (s : State) (nbits w : Nat) : State := placeWord (tableWord nbits w) s

end Sys2Proof.Machine
end

