-- ==== Sys2Proof/Machine/HostOps.lean ====
section
/-! DEFINITION. The host's operations on the core (spec/10_state.md R41 to R47), each atomic and only
between steps. Failures of an operation are returned to the caller and are no events (R202). -/

namespace Sys2Proof.Machine

/-- A failed host operation (R202). -/
inductive HostError where
  /-- LOAD_ERROR: a load of no bytes (R44). -/
  | loadError
  /-- INDEX_OUT_OF_RANGE: a register index of 32 or more (R43). -/
  | indexOutOfRange (index : Nat)
deriving DecidableEq, Repr

/-- `refuse(reason)` outside a step: set the refusal mark, nothing else (R29). On a core that is already
refused the new reason replaces the old one (DESIGN CHOICE, notes/assumptions/25.md). -/
def markRefused (r : Refusal) (s : State) : State := { s with refusal := some r }

/-- `reset()` (R42, R230): the reset state; the channels are the host's and stay (D19), the parameters
belong to the machine and stay. The refusal mark is clear as R230's table says, or stays as R29 says
(`resetClearsMark`, notes/assumptions/7.md). -/
def hostReset (s : State) : State :=
  { State.reset with
    trace := s.trace
    params := s.params
    refusal := if s.params.resetClearsMark then none else s.refusal }

/-- `load(base, bytes)` (R44): fails on no bytes, is refused past the top of the address space (the mark
is set, over any earlier one: DESIGN CHOICE, notes/assumptions/25.md), else copies the bytes. -/
def hostLoad (base : Word) (bytes : List Byte) (s : State) : Except HostError State :=
  if bytes.length = 0 then .error .loadError
  else if 2 ^ 32 < base.toNat + bytes.length then .ok (markRefused .loadPastTop s)
  else .ok { s with mem := storeBytes s.mem base.toNat bytes }

/-- `set_reg(i, v)` (R43). -/
def hostSetReg (i : Nat) (v : Word) (s : State) : Except HostError State :=
  match regSet s.regs i v with
  | some rf => .ok { s with regs := rf }
  | none => .error (.indexOutOfRange i)

/-- `get_reg(i)` (R43). -/
def hostGetReg (i : Nat) (s : State) : Except HostError Word :=
  match regGet s.regs i with
  | some v => .ok v
  | none => .error (.indexOutOfRange i)

/-- `set_pc(a)` (R45). -/
def hostSetPc (a : Word) (s : State) : State := { s with pc := a }

/-- `get_pc()` (R45). -/
def hostGetPc (s : State) : Word := s.pc

/-- `get_halted()` (R46). -/
def hostGetHalted (s : State) : Bool := s.halted

/-- `step()` as the host sees it: a refused step leaves the state as it was but for the mark (R29). -/
def hostStep (s : State) : State :=
  match step s with
  | .next t => t
  | .refused r => markRefused r s
  | .fault f => nomatch f

/-- `run()` under fuel (R36, D28): step until halted or refused. -/
def hostRun : Nat → State → State
  | 0, s => s
  | fuel + 1, s => if s.halted || s.refusal.isSome then s else hostRun fuel (hostStep s)

/-! ## Read-out of the channels, the memory and the dump (R27, R41, R46, R208) -/

/-- The decimal digits of a number, most significant first; `fuel` bounds their number. -/
def decimalDigits : Nat → Nat → List Nat
  | 0, _ => []
  | fuel + 1, n => if n < 10 then [n] else decimalDigits fuel (n / 10) ++ [n % 10]

/-- The character of a decimal digit. -/
def digitChar (d : Nat) : Char := Char.ofNat (48 + d)

/-- The line a console event stands for: unsigned decimal, no sign, no leading zero, one newline (R141). -/
def consoleLine (v : Word) : List Char := (decimalDigits 10 v.toNat).map digitChar ++ ['\n']

/-- The text on the console channel so far (R27). -/
def consoleText (s : State) : List Char :=
  s.trace.flatMap fun e =>
    match e with
    | .console v => consoleLine v
    | .diag _ => []

/-- The diagnostics so far (R28). -/
def diagnostics (s : State) : List Diag :=
  s.trace.filterMap fun e =>
    match e with
    | .console _ => none
    | .diag d => some d

/-- The host's reading of memory, in any state (R208, R215): the byte at an existing address, no value at one
that does not exist. R41 to R46 list no operation for it; this one is the model's (DESIGN CHOICE,
notes/assumptions/26.md). It is no read32: it reports nothing and changes nothing. -/
def hostGetByte (a : Word) (s : State) : Option Byte :=
  if a.toNat < s.mem.size then some (byteAt s.mem a.toNat) else none

/-- The content of the final dump: the pc and the 32 registers (R46). -/
def dumpContent (s : State) : Word × List Word := (s.pc, s.regs.toList)

/-- The dump under a text format, `DUMP_FORMAT`, which is an argument (R46, D15). -/
def dumpText (format : Word × List Word → String) (s : State) : String := format (dumpContent s)

end Sys2Proof.Machine
end

