-- ==== Sys2Proof/Safety.lean ====
section
/-! DEFINITION. The terms statements are written in: what a sound state is, what it is for two states to
agree on a part, which registers an instruction reads and writes (spec/10_state.md R23), and which bits of
a word its format uses (spec/30_encoding.md R93, R96). -/

namespace Sys2Proof.Machine

/-- A core that takes a step: not refused and not halted (R31, R36). -/
abbrev Running (s : State) : Prop := s.refusal = none ∧ s.halted = false

/-- The memory is canonical (R30), a halt reason is recorded exactly when the core is halted (R25, R26),
and the refusal mark is a reason the spec names (R204). -/
structure Sound (s : State) : Prop where
  memory : s.mem.wf
  reason : s.halted = s.haltReason.isSome
  mark : s.refusal = none ∨ s.refusal = some .topOfMemory ∨ s.refusal = some .loadPastTop

/-! ## Frames -/

/-- Same size and same bytes. -/
def SameMemory (s t : State) : Prop :=
  t.mem.size = s.mem.size ∧ ∀ a : Nat, byteAt t.mem a = byteAt s.mem a

/-- Every register but those listed reads as before. -/
def SameRegsBut (ds : List Nat) (s t : State) : Prop :=
  ∀ i : Nat, i ∉ ds → readReg i t = readReg i s

/-- Every register reads as before. -/
abbrev SameRegs (s t : State) : Prop := SameRegsBut [] s t

/-- The flag, the halt reason, the mark and the parameters are as before. -/
def SameControl (s t : State) : Prop :=
  t.halted = s.halted ∧ t.haltReason = s.haltReason ∧ t.refusal = s.refusal ∧ t.params = s.params

/-- An instruction that only writes register `d`, and goes on to the next instruction. -/
def OnlyWrites (d : Nat) (s t : State) : Prop :=
  SameRegsBut [d] s t ∧ SameMemory s t ∧ SameControl s t ∧ t.trace = s.trace ∧
  (s.halted = false → t.pc = s.pc + 4#32)

/-- An instruction that only sends the pc to `a`. -/
def OnlyMovesPc (a : Word) (s t : State) : Prop :=
  SameRegs s t ∧ SameMemory s t ∧ SameControl s t ∧ t.trace = s.trace ∧ (s.halted = false → t.pc = a)

/-- An instruction that only appends one event to the trace, and goes on to the next instruction. -/
def OnlyReports (e : Event) (s t : State) : Prop :=
  t.trace = s.trace ++ [e] ∧ SameRegs s t ∧ SameMemory s t ∧ SameControl s t ∧
  (s.halted = false → t.pc = s.pc + 4#32)

/-- A store of consecutive bytes from address `a` on, growing the memory with zero bytes to exactly their
end where that is beyond the size (R64, R65), and nothing else. -/
def OnlyStores (a : Nat) (bs : List Byte) (s t : State) : Prop :=
  (∀ k (h : k < bs.length), byteAt t.mem (a + k) = bs[k]) ∧
  (∀ k, k < a ∨ a + bs.length ≤ k → byteAt t.mem k = byteAt s.mem k) ∧
  (∀ k, s.mem.size ≤ k → k < a → byteAt t.mem k = 0#8) ∧
  t.mem.size = max s.mem.size (a + bs.length) ∧
  SameRegs s t ∧ SameControl s t ∧ t.trace = s.trace ∧ (s.halted = false → t.pc = s.pc + 4#32)

/-- A halt with a reason and its diagnostics, and nothing else: the pc is committed by R34. -/
def OnlyHalts (r : HaltReason) (ds : List Diag) (s t : State) : Prop :=
  t.halted = true ∧ t.haltReason = some r ∧ t.trace = s.trace ++ ds.map .diag ∧
  t.pc = (if s.params.haltCommitsPc then s.pc + 4#32 else s.pc) ∧
  SameRegs s t ∧ SameMemory s t ∧ t.refusal = s.refusal ∧ t.params = s.params

/-! ## Which registers an instruction reads and writes (R23) -/

/-- The column "reads" of R23. -/
def readsRegs : Instr → List Nat
  | .j _ => []
  | .syscall code => if code = 1#18 then [0] else []
  | .stp base rt1 rt2 _ => [base, rt1, rt2]
  | .rori _ rs _ => [rs]
  | .slti rs _ _ => [rs]
  | .st base rt _ => [base, rt]
  | .bdep _ rs1 rs2 => [rs1, rs2]
  | .cls _ rs => [rs]
  | .add rs rt _ => [rs, rt]
  | .bne rs rt _ => [rs, rt]
  | .beq rs rt _ => [rs, rt]
  | .ld base _ _ => [base]
  | .and rs rt _ => [rs, rt]
  | .ssat _ rs _ => [rs]

/-- The column "writes" of R23. -/
def writesRegs : Instr → List Nat
  | .j _ => []
  | .syscall _ => []
  | .stp _ _ _ _ => []
  | .rori rd _ _ => [rd]
  | .slti _ rt _ => [rt]
  | .st _ _ _ => []
  | .bdep rd _ _ => [rd]
  | .cls rd _ => [rd]
  | .add _ _ rd => [rd]
  | .bne _ _ _ => []
  | .beq _ _ _ => []
  | .ld _ rt _ => [rt]
  | .and _ _ rd => [rd]
  | .ssat rd _ _ => [rd]

/-! ## Which bits a format uses (R93, R96) -/

/-- The bits of the word that the decoder or the handler looks at: all but those R93 marks `-`. -/
def usedBits : Instr → Word
  | .j _ => 0xFFFFFFFF#32
  | .syscall _ => 0xFCFFFFFF#32
  | .stp _ _ _ _ => 0xFFFFFFFF#32
  | .rori _ _ _ => 0xFFFFF800#32
  | .slti _ _ _ => 0xFFFFFFFF#32
  | .st _ _ _ => 0xFFFFFFFF#32
  | .bdep _ _ _ => 0xFFFFF83F#32
  | .cls _ _ => 0xFFFF003F#32
  | .add _ _ _ => 0xFFFFF83F#32
  | .bne _ _ _ => 0xFFFFFFFF#32
  | .beq _ _ _ => 0xFFFFFFFF#32
  | .ld _ _ _ => 0xFFFFFFFF#32
  | .and _ _ _ => 0xFFFFF83F#32
  | .ssat _ _ _ => 0xFFFFF800#32

/-- The mask and the match word of an instruction's row in the opcode table (R101, R102). -/
def tableRow : Instr → Word × Word
  | .j _ => (0xFC000000#32, 0x9C000000#32)
  | .syscall _ => (0xFC00003F#32, 0x0000003E#32)
  | .stp _ _ _ _ => (0xFC000000#32, 0x20000000#32)
  | .rori _ _ _ => (0xFC000000#32, 0xEC000000#32)
  | .slti _ _ _ => (0xFC000000#32, 0x58000000#32)
  | .st _ _ _ => (0xFC000000#32, 0x0C000000#32)
  | .bdep _ _ _ => (0xFC00003F#32, 0x0000003A#32)
  | .cls _ _ => (0xFC00003F#32, 0x00000039#32)
  | .add _ _ _ => (0xFC00003F#32, 0x0000002B#32)
  | .bne _ _ _ => (0xFC000000#32, 0x90000000#32)
  | .beq _ _ _ => (0xFC000000#32, 0x08000000#32)
  | .ld _ _ _ => (0xFC000000#32, 0x68000000#32)
  | .and _ _ _ => (0xFC00003F#32, 0x0000002D#32)
  | .ssat _ _ _ => (0xFC000000#32, 0x3C000000#32)

end Sys2Proof.Machine
end

