-- ==== Sys2Proof/Certificates/Slice0/Obligations.lean ====
section
/-! DEFINITION. The statements for the provers. Each docstring names the rule of spec/ it formalises; one
that rests on a decision (`D<n>` of spec/92_eei_decisions.md), on a sentence the spec marks as derived, or
on a log entry of notes/assumptions/ says so. -/

open Sys2Proof Sys2Proof.Machine

/-! ## Encoding -/

/-- Every well-formed instruction survives encoding and decoding, from its word and from its bytes with
anything after them. From the field positions and tables of spec/30_encoding.md; the encoder's zeros in
unused bits are the model's choice (log 9). -/
def Obligations.DecodeOfEncodeIsTheInstruction : Prop :=
  ∀ (i : Instr) (rest : List Byte), WellFormed i →
    decodeWord (encode i) = .ok i ∧ decodeBytes (encodeBytes i ++ rest) = .ok (i, rest)

/-- A word that decodes is its instruction's encoding but for the bits its format does not use, and the
instruction is well formed. From R92, R93 and R96 (R96 is the spec's own derivation; log 9). -/
def Obligations.EncodeOfDecodeIsTheUsedBits : Prop :=
  ∀ (w : Word) (i : Instr), decodeWord w = .ok i → WellFormed i ∧ encode i = w &&& usedBits i

/-- Two words that differ only in unused bits are the same instruction (R96, which the spec marks as
derived and as decision D29). -/
def Obligations.UnusedBitsAreIgnored : Prop :=
  ∀ (w w' : Word) (i : Instr), decodeWord w = .ok i → w' &&& usedBits i = w &&& usedBits i →
    decodeWord w' = .ok i

/-- A word that matches a row of one of the two tables is that row's instruction; any other word decodes to
UNKNOWN, and the step that meets it reports, halts, runs no handler and commits the pc as `HALT_COMMITS_PC`
says. From R100 to R102, with R34's commit (decision D3, log 2) and fetch as read32 (R70, decision D4). -/
def Obligations.DecoderFollowsTheTwoTables : Prop :=
  (∀ (i : Instr) (w : Word), w &&& (tableRow i).1 = (tableRow i).2 →
    ∃ j, decodeWord w = .ok j ∧ tableRow j = tableRow i) ∧
  ∀ (s s1 : State) (w : Word), Running s → fetch s = .ok (w, s1) →
    (w.toNat / 2 ^ 26 ∉ [0x00, 0x02, 0x03, 0x08, 0x0F, 0x16, 0x1A, 0x24, 0x27, 0x3B] →
      ∃ t, step s = .next t ∧
        OnlyHalts .unknownOpcode [.unknownOpcode s.pc w (BitVec.ofNat 6 (w.toNat / 2 ^ 26))] s1 t) ∧
    (w.toNat / 2 ^ 26 = 0 → w.toNat % 2 ^ 6 ∉ [0x2B, 0x2D, 0x39, 0x3A, 0x3E] →
      ∃ t, step s = .next t ∧
        OnlyHalts .unknownFunct [.unknownFunct s.pc w (BitVec.ofNat 6 w.toNat)] s1 t)

/-- Words written out from the encodings of spec/30_encoding.md (they stand in spec/95_test_vectors.md)
decode to the instructions they stand for. -/
def Obligations.SampleWordsDecode : Prop :=
  decodeWord 0x0022182B#32 = .ok (.add 1 2 3) ∧
  decodeWord 0x0061103A#32 = .ok (.bdep 3 1 2) ∧
  decodeWord 0x20221808#32 = .ok (.stp 1 2 3 8#11) ∧
  decodeWord 0xEC412000#32 = .ok (.rori 2 1 4#5) ∧
  decodeWord 0x9022FFFE#32 = .ok (.bne 1 2 0xFFFE#16) ∧
  decodeWord 0x00FFFFFE#32 = .ok (.syscall 262143#18) ∧
  decodeWord 0x9C000010#32 = .ok (.j 0x10#26) ∧
  decodeWord 0x00000000#32 = .error (.funct 0#6)

/-! ## The control unit -/

/-- A running core whose pc is at four existing bytes that decode to an instruction runs that instruction
on the state as it is. From R31's cycle and R70's fetch, which is read32 at any pc, aligned or not (decisions
D4 and D5, log 13). R31 commits the pc in the step, after the handler; that exec ends with this commit, so that
step adds nothing to it, is the model's own form (DEDUCED, log 11). -/
def Obligations.StepRunsTheDecodedInstruction : Prop :=
  ∀ (s : State) (i : Instr) (rest : List Byte), Running s → s.pc.toNat + 4 ≤ 2 ^ 32 →
    s.pc.toNat + 4 ≤ s.mem.size →
    decodeBytes ([byteAt s.mem s.pc.toNat, byteAt s.mem (s.pc.toNat + 1), byteAt s.mem (s.pc.toNat + 2),
      byteAt s.mem (s.pc.toNat + 3)] ++ rest) = .ok (i, rest) →
    step s = exec i s

/-- A fetch past the end of memory reports OOR_READ, reads 0 and halts with UNKNOWN_FUNCT, whatever the
parameters. From R70, which the spec marks as decision D4. -/
def Obligations.FetchPastTheEndHalts : Prop :=
  ∀ s : State, Running s → s.pc.toNat + 4 ≤ 2 ^ 32 → s.mem.size < s.pc.toNat + 4 →
    ∃ t, step s = .next t ∧
      OnlyHalts .unknownFunct [.oorRead s.pc, .unknownFunct s.pc 0#32 0#6] s t

/-- A step on a halted core changes nothing; a refused core takes no step. From R35 (decision D26) and
R29 (decision D10); that the mark is looked at first is the model's choice (log 6). -/
def Obligations.HaltedAndRefusedCoresDoNothing : Prop :=
  ∀ s : State,
    (s.refusal = none → s.halted = true → step s = .next s) ∧
    (∀ r, s.refusal = some r → step s = .refused r)

/-- Every step keeps a sound state sound: the memory canonical and at most 2^32 bytes, a halt reason
recorded exactly when halted, the refusal mark a reason of R204. From R30 (bound marked derived), R25, R26. -/
def Obligations.StepKeepsSoundness : Prop :=
  ∀ s t : State, Sound s → step s = .next t → Sound t

/-- The state after reset is sound and is what R230's table says (decisions D10, D19, D25; the canonical form
is the model's own). -/
def Obligations.ResetStateIsSound : Prop :=
  Sound State.reset ∧ State.reset.halted = false ∧ State.reset.haltReason = none ∧
    State.reset.refusal = none ∧ State.reset.pc = 0#32 ∧ State.reset.mem.size = 0 ∧
    (∀ a, byteAt State.reset.mem a = 0#8) ∧ (∀ i, i < 32 → readReg i State.reset = 0#32) ∧
    State.reset.trace = []

/-- Once the pc is a multiple of 4 every step keeps it one: the targets of J, BNE and BEQ are not checked
but are aligned. From R125, which the spec marks as derived. -/
def Obligations.StepKeepsThePcAligned : Prop :=
  ∀ s t : State, s.pc.toNat % 4 = 0 → step s = .next t → t.pc.toNat % 4 = 0

/-- The events one step of a running core can make, and the halt reason that goes with them. No step
records BAD_REGISTER. From R205 (decision D8) and R33 (marked derived). -/
def Obligations.OneStepMakesOneOfTheListedEvents : Prop :=
  ∀ s t : State, Running s → step s = .next t →
    ∃ es : List Event, t.trace = s.trace ++ es ∧
      ((t.halted = false ∧ t.haltReason = s.haltReason ∧
          (es = [] ∨ (∃ a, es = [.diag (.oorRead a)]) ∨ es = [.console (readReg 0 s)] ∨
            ∃ c, es = [.diag (.unhandledSyscall s.pc c)])) ∨
       (t.halted = true ∧
          ((t.haltReason = some .syscallExit ∧ es = []) ∨
           (t.haltReason = some .unknownOpcode ∧ ∃ w op, es = [.diag (.unknownOpcode s.pc w op)]) ∨
           (t.haltReason = some .unknownFunct ∧ ∃ w f, es = [.diag (.unknownFunct s.pc w f)]) ∨
           (t.haltReason = some .unknownFunct ∧
              es = [.diag (.oorRead s.pc), .diag (.unknownFunct s.pc 0#32 0#6)]) ∨
           (t.haltReason = some .misaligned ∧ ∃ v, es = [.diag (.misaligned s.pc v)]))))

/-- A halt is precise: the halting step changes no register and no byte of memory, and the pc is committed
as `HALT_COMMITS_PC` says. From R207 and R34, which the spec marks as decision D3. -/
def Obligations.HaltIsPrecise : Prop :=
  ∀ s t : State, Running s → step s = .next t → t.halted = true →
    t.haltReason.isSome = true ∧ SameRegs s t ∧ SameMemory s t ∧ t.params = s.params ∧
    t.pc = (if s.params.haltCommitsPc then s.pc + 4#32 else s.pc)

/-- The parameters never change and no next state is refused. They are the model's own field (log 1) and
R29's mark (decision D10). -/
def Obligations.StepKeepsTheParameters : Prop :=
  ∀ s t : State, step s = .next t → t.params = s.params ∧ t.refusal = none

/-- An instruction writes no register but those R23's table lists for it. From R23. -/
def Obligations.InstructionsWriteOnlyTheListedRegisters : Prop :=
  ∀ (i : Instr) (s t : State), exec i s = .next t → SameRegsBut (writesRegs i) s t

/-- An instruction reads no register but those R23's table lists for it: another value in any other
register changes neither the outcome, nor the pc, the memory, the flag, the events, nor any other register;
and if the instruction writes that register without halting, not even that register's result. From R23. -/
def Obligations.InstructionsReadOnlyTheListedRegisters : Prop :=
  ∀ (i : Instr) (s : State) (r : Nat) (v : Word), WellFormed i → s.halted = false → r ∉ readsRegs i →
    (∀ e, exec i s = .refused e → exec i (writeReg r v s) = .refused e) ∧
    (∀ t, exec i s = .next t → ∃ t', exec i (writeReg r v s) = .next t' ∧
      t'.pc = t.pc ∧ t'.mem = t.mem ∧ t'.halted = t.halted ∧ t'.haltReason = t.haltReason ∧
      t'.trace = t.trace ∧ (∀ q, q ≠ r → readReg q t' = readReg q t) ∧
      (t.halted = false → r ∈ writesRegs i → readReg r t' = readReg r t))

/-- An instruction with a register index of 32 or more halts with BAD_REGISTER before any access. No
instruction word holds one. From R33, which the spec marks as decision D27; that an instruction can hold
such an index at all is the model's choice (log 8). -/
def Obligations.BadRegisterIndexHalts : Prop :=
  ∀ (i : Instr) (s : State), ¬ WellFormed i →
    ∃ r ∈ i.registers, ¬ r < 32 ∧ ∃ t, exec i s = .next t ∧ OnlyHalts .badRegister [.badRegister s.pc r] s t

/-- A step of a running core is refused only where the spec refuses it: a fetch, an LD or an ST above
0xFFFFFFFC, or an STP above 0xFFFFFFF8. From R66 and R204, which the spec marks as decision D10. -/
def Obligations.StepRefusesOnlyPastTheTop : Prop :=
  ∀ (s : State) (e : Refusal), Running s → step s = .refused e →
    e = .topOfMemory ∧
    (2 ^ 32 < s.pc.toNat + 4 ∨
     ∃ i, decodeWord (wordAt s.mem s.pc.toNat) = .ok i ∧
      ((∃ base rt imm16, (i = .ld base rt imm16 ∨ i = .st base rt imm16) ∧
          2 ^ 32 < (ldstAddr base imm16 s).toNat + 4) ∨
       (∃ base rt1 rt2 off11, i = .stp base rt1 rt2 off11 ∧ 2 ^ 32 < (stpAddr base off11 s).toNat + 8)))

/-! ## Control transfer -/

/-- R120, J: the region of the J itself, then the index times 4. -/
def Obligations.JumpGoesToItsRegionAndIndex : Prop :=
  (∀ w : Word, w &&& 0xFC000000#32 = 0x9C000000#32 → decodeWord w = .ok (.j (BitVec.ofNat 26 w.toNat))) ∧
  ∀ (index : BitVec 26) (s : State), ∃ (a : Word) (t : State),
    a.toNat = s.pc.toNat / 2 ^ 28 * 2 ^ 28 + index.toNat * 4 ∧
    exec (.j index) s = .next t ∧ OnlyMovesPc a s t

/-- R121, BNE: relative to the branch itself, taken when the registers differ. -/
def Obligations.BneBranchesWhenNotEqual : Prop :=
  (∀ w : Word, w &&& 0xFC000000#32 = 0x90000000#32 →
    decodeWord w = .ok (.bne (w.toNat / 2 ^ 21 % 32) (w.toNat / 2 ^ 16 % 32) (BitVec.ofNat 16 w.toNat))) ∧
  ∀ (rs rt : Nat) (imm16 : BitVec 16) (s : State), rs < 32 → rt < 32 →
    ∃ t, exec (.bne rs rt imm16) s = .next t ∧
      OnlyMovesPc (if readReg rs s ≠ readReg rt s then s.pc + BitVec.ofInt 32 (imm16.toInt * 4)
        else s.pc + 4#32) s t

/-- R122, BEQ: relative to the branch itself, taken when the registers are equal. -/
def Obligations.BeqBranchesWhenEqual : Prop :=
  (∀ w : Word, w &&& 0xFC000000#32 = 0x08000000#32 →
    decodeWord w = .ok (.beq (w.toNat / 2 ^ 21 % 32) (w.toNat / 2 ^ 16 % 32) (BitVec.ofNat 16 w.toNat))) ∧
  ∀ (rs rt : Nat) (imm16 : BitVec 16) (s : State), rs < 32 → rt < 32 →
    ∃ t, exec (.beq rs rt imm16) s = .next t ∧
      OnlyMovesPc (if readReg rs s = readReg rt s then s.pc + BitVec.ofInt 32 (imm16.toInt * 4)
        else s.pc + 4#32) s t

/-! ## SYSCALL -/

/-- SYSCALL (R140): code 0 halts with no diagnostic (decision D13), code 1 emits x[0], any other code is
reported and execution goes on. -/
def Obligations.SyscallHaltsEmitsOrReports : Prop :=
  (∀ w : Word, w &&& 0xFC00003F#32 = 0x0000003E#32 →
    decodeWord w = .ok (.syscall (BitVec.ofNat 18 (w.toNat / 2 ^ 6)))) ∧
  ∀ s : State,
    (∃ t, exec (.syscall 0#18) s = .next t ∧ OnlyHalts .syscallExit [] s t) ∧
    (∃ t, exec (.syscall 1#18) s = .next t ∧ OnlyReports (.console (readReg 0 s)) s t) ∧
    (∀ code : BitVec 18, 2 ≤ code.toNat → ∃ t, exec (.syscall code) s = .next t ∧
      OnlyReports (.diag (.unhandledSyscall s.pc code)) s t)

/-! ## Loads and stores -/

/-- The offset's extension and the value the alignment check tests, for every choice of the parameters.
From R159 and R160, which the spec marks as decisions D6, D7 and D22. -/
def Obligations.AddressAndCheckFollowTheParameters : Prop :=
  ∀ (base : Nat) (imm16 : BitVec 16) (off11 : BitVec 11) (s : State),
    (s.params.offsetExt = .zext →
      ldstAddr base imm16 s = readReg base s + BitVec.ofNat 32 imm16.toNat ∧
      stpAddr base off11 s = readReg base s + BitVec.ofNat 32 off11.toNat) ∧
    (s.params.offsetExt = .sext →
      ldstAddr base imm16 s = readReg base s + BitVec.ofInt 32 imm16.toInt ∧
      stpAddr base off11 s = readReg base s + BitVec.ofInt 32 off11.toInt) ∧
    (s.params.alignCheckLdst = .address → ldstChecked base imm16 s = ldstAddr base imm16 s) ∧
    (s.params.alignCheckLdst = .offset →
      ldstChecked base imm16 s = ldstAddr base imm16 s - readReg base s) ∧
    (s.params.alignCheckStp = .address → stpChecked base off11 s = stpAddr base off11 s) ∧
    (s.params.alignCheckStp = .offset → stpChecked base off11 s = stpAddr base off11 s - readReg base s)

/-- LD: inside the memory it loads the little-endian word; out of range it reports and loads 0; past the top
it is refused; misaligned it halts before the access. From R156, over the choices D6, D7, D8 and D10. -/
def Obligations.LdLoadsTheWordAtItsAddress : Prop :=
  (∀ w : Word, w &&& 0xFC000000#32 = 0x68000000#32 →
    decodeWord w = .ok (.ld (w.toNat / 2 ^ 21 % 32) (w.toNat / 2 ^ 16 % 32) (BitVec.ofNat 16 w.toNat))) ∧
  ∀ (base rt : Nat) (imm16 : BitVec 16) (s : State), base < 32 → rt < 32 →
    ((ldstChecked base imm16 s).toNat % 4 = 0 → (ldstAddr base imm16 s).toNat + 4 ≤ 2 ^ 32 →
      (ldstAddr base imm16 s).toNat + 4 ≤ s.mem.size →
      ∃ t, exec (.ld base rt imm16) s = .next t ∧
        (readReg rt t).toNat =
          (byteAt s.mem (ldstAddr base imm16 s).toNat).toNat +
          (byteAt s.mem ((ldstAddr base imm16 s).toNat + 1)).toNat * 2 ^ 8 +
          (byteAt s.mem ((ldstAddr base imm16 s).toNat + 2)).toNat * 2 ^ 16 +
          (byteAt s.mem ((ldstAddr base imm16 s).toNat + 3)).toNat * 2 ^ 24 ∧
        OnlyWrites rt s t) ∧
    ((ldstChecked base imm16 s).toNat % 4 = 0 → (ldstAddr base imm16 s).toNat + 4 ≤ 2 ^ 32 →
      s.mem.size < (ldstAddr base imm16 s).toNat + 4 →
      ∃ t, exec (.ld base rt imm16) s = .next t ∧ readReg rt t = 0#32 ∧
        OnlyWrites rt (report (.oorRead (ldstAddr base imm16 s)) s) t) ∧
    ((ldstChecked base imm16 s).toNat % 4 = 0 → 2 ^ 32 < (ldstAddr base imm16 s).toNat + 4 →
      exec (.ld base rt imm16) s = .refused .topOfMemory) ∧
    ((ldstChecked base imm16 s).toNat % 4 ≠ 0 →
      ∃ t, exec (.ld base rt imm16) s = .next t ∧
        OnlyHalts .misaligned [.misaligned s.pc (ldstChecked base imm16 s)] s t)

/-- ST: it stores the word's four bytes and grows the memory as needed; past the top it is refused; misaligned
it halts before the access. From R153, over the choices D6, D7, D8, D9 and D10. -/
def Obligations.StStoresTheWordAtItsAddress : Prop :=
  (∀ w : Word, w &&& 0xFC000000#32 = 0x0C000000#32 →
    decodeWord w = .ok (.st (w.toNat / 2 ^ 21 % 32) (w.toNat / 2 ^ 16 % 32) (BitVec.ofNat 16 w.toNat))) ∧
  ∀ (base rt : Nat) (imm16 : BitVec 16) (s : State), base < 32 → rt < 32 →
    (s.mem.wf → (ldstChecked base imm16 s).toNat % 4 = 0 → (ldstAddr base imm16 s).toNat + 4 ≤ 2 ^ 32 →
      ∃ t, exec (.st base rt imm16) s = .next t ∧
        OnlyStores (ldstAddr base imm16 s).toNat (wordBytes (readReg rt s)) s t) ∧
    ((ldstChecked base imm16 s).toNat % 4 = 0 → 2 ^ 32 < (ldstAddr base imm16 s).toNat + 4 →
      exec (.st base rt imm16) s = .refused .topOfMemory) ∧
    ((ldstChecked base imm16 s).toNat % 4 ≠ 0 →
      ∃ t, exec (.st base rt imm16) s = .next t ∧
        OnlyHalts .misaligned [.misaligned s.pc (ldstChecked base imm16 s)] s t)

/-- STP (R150): it stores both words, the first register's lower; a pair that would pass the top is refused
before either write (D10, D30); misaligned it halts before the access. Over the choices D6 to D9. -/
def Obligations.StpStoresBothWords : Prop :=
  (∀ w : Word, w &&& 0xFC000000#32 = 0x20000000#32 →
    decodeWord w = .ok (.stp (w.toNat / 2 ^ 21 % 32) (w.toNat / 2 ^ 16 % 32) (w.toNat / 2 ^ 11 % 32)
      (BitVec.ofNat 11 w.toNat))) ∧
  ∀ (base rt1 rt2 : Nat) (off11 : BitVec 11) (s : State), base < 32 → rt1 < 32 → rt2 < 32 →
    (s.mem.wf → (stpChecked base off11 s).toNat % 4 = 0 → (stpAddr base off11 s).toNat + 8 ≤ 2 ^ 32 →
      ∃ t, exec (.stp base rt1 rt2 off11) s = .next t ∧
        OnlyStores (stpAddr base off11 s).toNat (wordBytes (readReg rt1 s) ++ wordBytes (readReg rt2 s)) s t) ∧
    ((stpChecked base off11 s).toNat % 4 = 0 → 2 ^ 32 < (stpAddr base off11 s).toNat + 8 →
      exec (.stp base rt1 rt2 off11) s = .refused .topOfMemory) ∧
    ((stpChecked base off11 s).toNat % 4 ≠ 0 →
      ∃ t, exec (.stp base rt1 rt2 off11) s = .next t ∧
        OnlyHalts .misaligned [.misaligned s.pc (stpChecked base off11 s)] s t)

/-! ## The ALU's primitives -/

/-- R170: bit i of a rotation by n is bit (i + n) mod 32 of the operand; a rotation by 0 is the operand. -/
def Obligations.RotateRightMovesEveryBit : Prop :=
  ∀ (v : Word) (n : Nat), n ≤ 31 →
    rotateRight v 0 = v ∧
    ∀ i, i < 32 → (rotateRight v n).getLsbD i = v.getLsbD ((i + n) % 32)

/-- R172: bit i of a deposit is 0 where the mask has no bit, else the source's bit whose number is how many
mask bits lie below i. -/
def Obligations.DepositScattersTheLowBits : Prop :=
  ∀ (src mask : Word) (i : Nat), i < 32 →
    (deposit src mask).getLsbD i =
      (mask.getLsbD i && src.getLsbD ((List.range i).countP fun j => mask.getLsbD j))

/-- R173: the count is at most 31, every bit it counts equals the sign, and the next one below does not. -/
def Obligations.LeadingSignCountIsTheLongestRun : Prop :=
  ∀ x : Word, countLeadingSign x ≤ 31 ∧
    (∀ j, 1 ≤ j → j ≤ countLeadingSign x → x.getLsbD (31 - j) = x.getLsbD 31) ∧
    (countLeadingSign x < 31 → x.getLsbD (30 - countLeadingSign x) ≠ x.getLsbD 31)

/-- R174: N = 0 copies; any other N clamps the signed value into the N-bit signed range. -/
def Obligations.SaturateClampsToTheSignedRange : Prop :=
  ∀ (v : Word) (n : Nat), n ≤ 31 →
    saturate v 0 = v ∧
    (1 ≤ n →
      (v.toInt < -2 ^ (n - 1) → (saturate v n).toInt = -2 ^ (n - 1)) ∧
      (2 ^ (n - 1) - 1 < v.toInt → (saturate v n).toInt = 2 ^ (n - 1) - 1) ∧
      (-2 ^ (n - 1) ≤ v.toInt → v.toInt ≤ 2 ^ (n - 1) - 1 → saturate v n = v))

/-! ## The ALU instructions -/

/-- R175, RORI. -/
def Obligations.RoriRotatesRight : Prop :=
  (∀ w : Word, w &&& 0xFC000000#32 = 0xEC000000#32 →
    decodeWord w = .ok (.rori (w.toNat / 2 ^ 21 % 32) (w.toNat / 2 ^ 16 % 32)
      (BitVec.ofNat 5 (w.toNat / 2 ^ 11)))) ∧
  ∀ (rd rs : Nat) (imm5 : BitVec 5) (s : State), rd < 32 → rs < 32 →
    ∃ t, exec (.rori rd rs imm5) s = .next t ∧
      readReg rd t = rotateRight (readReg rs s) imm5.toNat ∧ OnlyWrites rd s t

/-- R176, SLTI: a signed comparison with the sign-extended immediate; the destination is the second field. -/
def Obligations.SltiComparesSigned : Prop :=
  (∀ w : Word, w &&& 0xFC000000#32 = 0x58000000#32 →
    decodeWord w = .ok (.slti (w.toNat / 2 ^ 21 % 32) (w.toNat / 2 ^ 16 % 32) (BitVec.ofNat 16 w.toNat))) ∧
  ∀ (rs rt : Nat) (imm16 : BitVec 16) (s : State), rs < 32 → rt < 32 →
    ∃ t, exec (.slti rs rt imm16) s = .next t ∧
      readReg rt t = (if (readReg rs s).toInt < imm16.toInt then 1#32 else 0#32) ∧ OnlyWrites rt s t

/-- R177, BDEP: destination, source, mask, in this order of fields. -/
def Obligations.BdepDepositsUnderItsMask : Prop :=
  (∀ w : Word, w &&& 0xFC00003F#32 = 0x0000003A#32 →
    decodeWord w = .ok (.bdep (w.toNat / 2 ^ 21 % 32) (w.toNat / 2 ^ 16 % 32) (w.toNat / 2 ^ 11 % 32))) ∧
  ∀ (rd rs1 rs2 : Nat) (s : State), rd < 32 → rs1 < 32 → rs2 < 32 →
    ∃ t, exec (.bdep rd rs1 rs2) s = .next t ∧
      readReg rd t = deposit (readReg rs1 s) (readReg rs2 s) ∧ OnlyWrites rd s t

/-- R178, CLS. -/
def Obligations.ClsCountsLeadingSignBits : Prop :=
  (∀ w : Word, w &&& 0xFC00003F#32 = 0x00000039#32 →
    decodeWord w = .ok (.cls (w.toNat / 2 ^ 21 % 32) (w.toNat / 2 ^ 16 % 32))) ∧
  ∀ (rd rs : Nat) (s : State), rd < 32 → rs < 32 →
    ∃ t, exec (.cls rd rs) s = .next t ∧
      (readReg rd t).toNat = countLeadingSign (readReg rs s) ∧ OnlyWrites rd s t

/-- R179, ADD: modulo 2^32; source, source, destination, in this order of fields. -/
def Obligations.AddWrapsModuloWordSize : Prop :=
  (∀ w : Word, w &&& 0xFC00003F#32 = 0x0000002B#32 →
    decodeWord w = .ok (.add (w.toNat / 2 ^ 21 % 32) (w.toNat / 2 ^ 16 % 32) (w.toNat / 2 ^ 11 % 32))) ∧
  ∀ (rs rt rd : Nat) (s : State), rs < 32 → rt < 32 → rd < 32 →
    ∃ t, exec (.add rs rt rd) s = .next t ∧
      (readReg rd t).toNat = ((readReg rs s).toNat + (readReg rt s).toNat) % 2 ^ 32 ∧ OnlyWrites rd s t

/-- R180, AND: bit by bit. -/
def Obligations.AndIsBitwise : Prop :=
  (∀ w : Word, w &&& 0xFC00003F#32 = 0x0000002D#32 →
    decodeWord w = .ok (.and (w.toNat / 2 ^ 21 % 32) (w.toNat / 2 ^ 16 % 32) (w.toNat / 2 ^ 11 % 32))) ∧
  ∀ (rs rt rd : Nat) (s : State), rs < 32 → rt < 32 → rd < 32 →
    ∃ t, exec (.and rs rt rd) s = .next t ∧
      (∀ k, (readReg rd t).getLsbD k = ((readReg rs s).getLsbD k && (readReg rt s).getLsbD k)) ∧
      OnlyWrites rd s t

/-- R181, SSAT. -/
def Obligations.SsatSaturatesToItsWidth : Prop :=
  (∀ w : Word, w &&& 0xFC000000#32 = 0x3C000000#32 →
    decodeWord w = .ok (.ssat (w.toNat / 2 ^ 21 % 32) (w.toNat / 2 ^ 16 % 32)
      (BitVec.ofNat 5 (w.toNat / 2 ^ 11)))) ∧
  ∀ (rd rs : Nat) (imm5 : BitVec 5) (s : State), rd < 32 → rs < 32 →
    ∃ t, exec (.ssat rd rs imm5) s = .next t ∧
      readReg rd t = saturate (readReg rs s) imm5.toNat ∧ OnlyWrites rd s t

/-! ## Memory -/

/-- The extensions of R13; that of 11 bits by the sign is the spec's own (decision D6). -/
def Obligations.ExtensionsFollowTheSignBit : Prop :=
  (∀ v : BitVec 16,
    (v.getLsbD 15 = true → sext16 v = 0xFFFF0000#32 ||| BitVec.ofNat 32 v.toNat) ∧
    (v.getLsbD 15 = false → sext16 v = BitVec.ofNat 32 v.toNat) ∧ (zext16 v).toNat = v.toNat) ∧
  (∀ v : BitVec 11,
    (∀ k, k < 32 → (sext11 v).getLsbD k = v.getLsbD (min k 10)) ∧ (zext11 v).toNat = v.toNat)

/-- Byte order (R62): a word's byte k, at the address k above its first, is its bits 8k+7 .. 8k, and the four bytes
give the word back. -/
def Obligations.ByteOrderIsLittleEndian : Prop :=
  ∀ v : Word, (wordBytes v).map BitVec.toNat =
      [v.toNat % 2 ^ 8, v.toNat / 2 ^ 8 % 2 ^ 8, v.toNat / 2 ^ 16 % 2 ^ 8, v.toNat / 2 ^ 24] ∧
    ∀ b0 b1 b2 b3 : Byte, wordBytes v = [b0, b1, b2, b3] → wordOfBytes b0 b1 b2 b3 = v

/-- read32 (R63): refused past the top (decision D10); out of range it reports, gives 0 and changes nothing
else; else it gives the little-endian word and changes nothing. -/
def Obligations.MemReadFollowsItsRule : Prop :=
  ∀ (addr : Word) (s : State),
    (0xFFFFFFFC < addr.toNat → memRead addr s = .error .topOfMemory) ∧
    (addr.toNat ≤ 0xFFFFFFFC → s.mem.size < addr.toNat + 4 →
      memRead addr s = .ok (0#32, { s with trace := s.trace ++ [.diag (.oorRead addr)] })) ∧
    (addr.toNat ≤ 0xFFFFFFFC → addr.toNat + 4 ≤ s.mem.size →
      ∃ v, memRead addr s = .ok (v, s) ∧
        v.toNat = (byteAt s.mem addr.toNat).toNat + (byteAt s.mem (addr.toNat + 1)).toNat * 2 ^ 8 +
          (byteAt s.mem (addr.toNat + 2)).toNat * 2 ^ 16 + (byteAt s.mem (addr.toNat + 3)).toNat * 2 ^ 24)

/-- write32 (R64): refused past the top (decision D10); else it grows the memory with zero bytes to exactly
the word's end where needed (decision D9), stores the four bytes, and changes nothing else. -/
def Obligations.MemWriteFollowsItsRule : Prop :=
  ∀ (addr v : Word) (s : State),
    (0xFFFFFFFC < addr.toNat → memWrite addr v s = .error .topOfMemory) ∧
    (addr.toNat ≤ 0xFFFFFFFC → s.mem.wf →
      ∃ m : Memory, memWrite addr v s = .ok { s with mem := m } ∧
        m.size = (if s.mem.size < addr.toNat + 4 then addr.toNat + 4 else s.mem.size) ∧
        (∀ k, k < 4 → byteAt m (addr.toNat + k) = v.extractLsb' (8 * k) 8) ∧
        (∀ a, a < addr.toNat ∨ addr.toNat + 4 ≤ a → a < s.mem.size → byteAt m a = byteAt s.mem a) ∧
        (∀ a, s.mem.size ≤ a → a < addr.toNat → byteAt m a = 0#8))

/-- A word just written is what the next read of its address gives, as data and as an instruction. From
R72 and R75, the latter marked as decision D18. -/
def Obligations.NextFetchSeesTheStoredWord : Prop :=
  ∀ (addr v : Word) (s t : State), s.mem.wf → memWrite addr v s = .ok t →
    memRead addr t = .ok (v, t) ∧ fetch { t with pc := addr } = .ok (v, { t with pc := addr })

/-- No step shrinks the memory, and a step that changes it ran an ST or an STP. From R30 and the semantics
of spec/41_control.md to 44_alu.md. -/
def Obligations.OnlyStoresChangeTheMemory : Prop :=
  ∀ s t : State, step s = .next t → s.mem.size ≤ t.mem.size ∧
    (t.mem ≠ s.mem → ∃ i, decodeWord (wordAt s.mem s.pc.toNat) = .ok i ∧
      ((∃ base rt imm16, i = .st base rt imm16) ∨ ∃ base rt1 rt2 off11, i = .stp base rt1 rt2 off11))

/-! ## The host's operations, reset and boot -/

/-- R22: the register file. -/
def Obligations.RegisterFileGetAfterSet : Prop :=
  ∀ (rf : Vector Word 32) (i : Nat) (v : Word),
    (i < 32 → ∃ rf', regSet rf i v = some rf' ∧ regGet rf' i = some v ∧
      ∀ j, j ≠ i → regGet rf' j = regGet rf j) ∧
    (¬ i < 32 → regSet rf i v = none ∧ regGet rf i = none)

/-- The host's register access changes one register or fails and changes nothing. From R43, which the spec
marks as decision D20. -/
def Obligations.HostRegisterAccessIsChecked : Prop :=
  ∀ (i : Nat) (v : Word) (s : State),
    (i < 32 → hostGetReg i s = .ok (readReg i s) ∧
      ∃ t, hostSetReg i v s = .ok t ∧ hostGetReg i t = .ok v ∧ SameRegsBut [i] s t ∧
        t.pc = s.pc ∧ t.halted = s.halted ∧ t.mem = s.mem ∧ t.trace = s.trace) ∧
    (¬ i < 32 → hostGetReg i s = .error (.indexOutOfRange i) ∧
      hostSetReg i v s = .error (.indexOutOfRange i))

/-- The host's load fails on no bytes, is refused past the top of the address space with the mark set and
nothing else changed, and else copies the bytes, growing the memory as a store does. From R44, which the
spec marks as decision D11; that the mark replaces an earlier one is the model's choice (log 25). -/
def Obligations.HostLoadCopiesTheBytes : Prop :=
  ∀ (base : Word) (bytes : List Byte) (s : State),
    (bytes = [] → hostLoad base bytes s = .error .loadError) ∧
    (2 ^ 32 < base.toNat + bytes.length → bytes ≠ [] →
      hostLoad base bytes s = .ok { s with refusal := some .loadPastTop }) ∧
    (bytes ≠ [] → base.toNat + bytes.length ≤ 2 ^ 32 → s.mem.wf →
      ∃ t, hostLoad base bytes s = .ok t ∧ t.mem.wf ∧
        t.mem.size = max s.mem.size (base.toNat + bytes.length) ∧
        (∀ k (h : k < bytes.length), byteAt t.mem (base.toNat + k) = bytes[k]) ∧
        (∀ k, k < base.toNat ∨ base.toNat + bytes.length ≤ k → byteAt t.mem k = byteAt s.mem k) ∧
        (∀ k, s.mem.size ≤ k → k < base.toNat → byteAt t.mem k = 0#8) ∧
        SameRegs s t ∧ SameControl s t ∧ t.pc = s.pc ∧ t.trace = s.trace)

/-- What reset leaves: memory cleared, registers zeroed, pc 0, not halted, no halt reason; the channels
stay. From R42 and R230 (decisions D19, D25); that the parameters stay, and that one of them says whether the
mark is cleared (R230's table) or kept (R29), is the model's choice (logs 1 and 7). -/
def Obligations.ResetClearsTheCore : Prop :=
  ∀ s : State, let t := hostReset s
    (∀ i, i < 32 → hostGetReg i t = .ok 0#32) ∧ t.pc = 0#32 ∧ t.halted = false ∧ t.mem.size = 0 ∧
    (∀ a, byteAt t.mem a = 0#8) ∧ t.haltReason = none ∧
    t.refusal = (if s.params.resetClearsMark then none else s.refusal) ∧ t.trace = s.trace ∧
    t.params = s.params ∧ (s.trace = [] → s.params = Params.default → t = State.reset)

/-- A halted core stays halted under every host operation but reset, and run leaves it as it is. From R47 and
R208 (decisions D17, D21). -/
def Obligations.OnlyResetLeavesTheHaltedState : Prop :=
  ∀ s : State, s.halted = true →
    (hostStep s).halted = true ∧ (∀ n, hostRun n s = s) ∧ (∀ a, (hostSetPc a s).halted = true) ∧
    (∀ i v t, hostSetReg i v s = .ok t → t.halted = true) ∧
    (∀ b bs t, hostLoad b bs s = .ok t → t.halted = true) ∧ (hostReset s).halted = false

/-- Running under fuel: no fuel is no step, one more unit of fuel is one host step first on a core that is
neither halted nor refused, fuel adds up, and a run that ended halted or refused stays where it ended. From
R36 (decision D28). -/
def Obligations.RunUnderFuelAddsUp : Prop :=
  ∀ (m n : Nat) (s : State), hostRun 0 s = s ∧
    (Running s → hostRun (n + 1) s = hostRun n (hostStep s)) ∧
    hostRun (m + n) s = hostRun n (hostRun m s) ∧
    ((hostRun m s).halted = true ∨ (hostRun m s).refusal.isSome = true →
      hostRun (m + n) s = hostRun m s)

/-- A refused step has no effect but the mark, and no later step or run has any. From R29 (decision D10). -/
def Obligations.RefusalMarkStopsTheCore : Prop :=
  ∀ (s : State) (r : Refusal), step s = .refused r →
    hostStep s = { s with refusal := some r } ∧ hostStep (hostStep s) = hostStep s ∧
    ∀ n, hostRun n (hostStep s) = hostStep s

/-- The console line is the unsigned decimal spelling of the value, with no leading zero, and one newline.
From R141 (decision D12). -/
def Obligations.ConsoleLineIsUnsignedDecimal : Prop :=
  ∀ v : Word, ∃ ds : List Nat, consoleLine v = ds.map digitChar ++ ['\n'] ∧ ds ≠ [] ∧
    (∀ d ∈ ds, d < 10) ∧ (ds.head? = some 0 → ds = [0]) ∧
    ds.foldl (fun n d => n * 10 + d) 0 = v.toNat

/-- Without a load the first step after reset reports OOR_READ and halts. From R235, which the spec marks as
derived. -/
def Obligations.BootWithoutLoadHalts : Prop :=
  ∃ t, step State.reset = .next t ∧
    OnlyHalts .unknownFunct [.oorRead 0#32, .unknownFunct 0#32 0#32 0#6] State.reset t

/-- With any image loaded at a base that leaves the first word below it, and the pc left at 0, the first step
reads zero fill and halts with UNKNOWN_FUNCT and no OOR_READ. From R234, which the spec marks as derived. -/
def Obligations.BootBelowTheImageHalts : Prop :=
  ∀ (base : Word) (bytes : List Byte) (s : State), 4 ≤ base.toNat → base.toNat + bytes.length ≤ 2 ^ 32 →
    hostLoad base bytes State.reset = .ok s →
    ∃ t, step s = .next t ∧ OnlyHalts .unknownFunct [.unknownFunct 0#32 0#32 0#6] s t

/-- A step that answers a next state is what the host's step does. From R31 and R41 (decisions D1, D2). -/
def Obligations.HostStepTakesTheStep : Prop :=
  ∀ s t : State, step s = .next t → hostStep s = t

/-- The host's set_pc sends the pc to any address, aligned or not, and changes nothing else; get_pc and
get_halted read. From R45 and R46. -/
def Obligations.HostPcAccessIsUnchecked : Prop :=
  ∀ (a : Word) (s : State), (hostSetPc a s).pc = a ∧ hostGetPc (hostSetPc a s) = a ∧
    SameRegs s (hostSetPc a s) ∧ SameMemory s (hostSetPc a s) ∧ SameControl s (hostSetPc a s) ∧
    (hostSetPc a s).trace = s.trace ∧ hostGetPc s = s.pc ∧ hostGetHalted s = s.halted

/-- The two channels are read from the trace alone: nothing at first; an emit adds its line to the console
and nothing to the diagnostics, a report the reverse. From R27 and R28 (decisions D12, D13, D31). -/
def Obligations.ReadOutsFollowTheTrace : Prop :=
  ∀ (s : State) (v : Word) (d : Diag),
    (s.trace = [] → consoleText s = [] ∧ diagnostics s = []) ∧
    consoleText (emit v s) = consoleText s ++ consoleLine v ∧ diagnostics (emit v s) = diagnostics s ∧
    consoleText (report d s) = consoleText s ∧ diagnostics (report d s) = diagnostics s ++ [d] ∧
    ∀ t : State, t.trace = s.trace → consoleText t = consoleText s ∧ diagnostics t = diagnostics s

/-- The dump's content is the pc and the 32 registers in order; its text is any format of that content. From
R46 (decision D15, log 17). -/
def Obligations.DumpHoldsThePcAndRegisters : Prop :=
  ∀ (format : Word × List Word → String) (s : State),
    (dumpContent s).1 = s.pc ∧ (dumpContent s).2.length = 32 ∧
    (∀ i, i < 32 → (dumpContent s).2[i]? = some (readReg i s)) ∧
    dumpText format s = format (dumpContent s)

/-- A refused core stays refused: step and run leave it as it is, set_pc and set_reg keep its mark, a load
keeps or replaces it (log 25), and reset() keeps it where the parameter follows R29 (log 7). From R29 and R47
(decisions D10, D17). -/
def Obligations.RefusedCoreStaysRefused : Prop :=
  ∀ s : State, s.refusal.isSome = true →
    hostStep s = s ∧ (∀ n, hostRun n s = s) ∧ (∀ a, (hostSetPc a s).refusal = s.refusal) ∧
    (∀ i v t, hostSetReg i v s = .ok t → t.refusal = s.refusal) ∧
    (∀ b bs t, hostLoad b bs s = .ok t → t.refusal.isSome = true) ∧
    (s.params.resetClearsMark = false →
      (hostReset s).refusal = s.refusal ∧ hostStep (hostReset s) = hostReset s)

/-- The host can read the memory of a halted core: a byte at an existing address, nothing beyond the size, the
bytes of a load just made, and no byte after reset(). From R208 and R215; the operation itself is the model's
choice (log 26). -/
def Obligations.HostReadsTheMemory : Prop :=
  ∀ (a : Word) (s : State),
    (a.toNat < s.mem.size → hostGetByte a s = some (byteAt s.mem a.toNat)) ∧
    (s.mem.size ≤ a.toNat → hostGetByte a s = none) ∧
    (∀ r, hostGetByte a (setHalted r s) = hostGetByte a s) ∧
    (∀ (b : Byte) (t : State), s.mem.wf → hostLoad a [b] s = .ok t → hostGetByte a t = some b) ∧
    hostGetByte a (hostReset s) = none
end

