-- ==== Sys2Proof/Laws/State.lean ====
section
/-! SUPPORT. What each update of the state does to each field, one lemma each, so that no later proof
unfolds a record update. -/

namespace Sys2Proof.Laws

open Sys2Proof.Machine

variable (s : State)

/-! ## Output channels -/

@[simp] theorem emit_regs (v : Word) : (emit v s).regs = s.regs := rfl
@[simp] theorem emit_pc (v : Word) : (emit v s).pc = s.pc := rfl
@[simp] theorem emit_halted (v : Word) : (emit v s).halted = s.halted := rfl
@[simp] theorem emit_mem (v : Word) : (emit v s).mem = s.mem := rfl
@[simp] theorem emit_haltReason (v : Word) : (emit v s).haltReason = s.haltReason := rfl
@[simp] theorem emit_trace (v : Word) : (emit v s).trace = s.trace ++ [.console v] := rfl
@[simp] theorem emit_refusal (v : Word) : (emit v s).refusal = s.refusal := rfl
@[simp] theorem emit_params (v : Word) : (emit v s).params = s.params := rfl

@[simp] theorem report_regs (d : Diag) : (report d s).regs = s.regs := rfl
@[simp] theorem report_pc (d : Diag) : (report d s).pc = s.pc := rfl
@[simp] theorem report_halted (d : Diag) : (report d s).halted = s.halted := rfl
@[simp] theorem report_mem (d : Diag) : (report d s).mem = s.mem := rfl
@[simp] theorem report_haltReason (d : Diag) : (report d s).haltReason = s.haltReason := rfl
@[simp] theorem report_trace (d : Diag) : (report d s).trace = s.trace ++ [.diag d] := rfl
@[simp] theorem report_refusal (d : Diag) : (report d s).refusal = s.refusal := rfl
@[simp] theorem report_params (d : Diag) : (report d s).params = s.params := rfl

/-! ## Halting -/

@[simp] theorem setHalted_regs (r : HaltReason) : (setHalted r s).regs = s.regs := rfl
@[simp] theorem setHalted_pc (r : HaltReason) : (setHalted r s).pc = s.pc := rfl
@[simp] theorem setHalted_halted (r : HaltReason) : (setHalted r s).halted = true := rfl
@[simp] theorem setHalted_mem (r : HaltReason) : (setHalted r s).mem = s.mem := rfl
@[simp] theorem setHalted_haltReason (r : HaltReason) : (setHalted r s).haltReason = some r := rfl
@[simp] theorem setHalted_trace (r : HaltReason) : (setHalted r s).trace = s.trace := rfl
@[simp] theorem setHalted_refusal (r : HaltReason) : (setHalted r s).refusal = s.refusal := rfl
@[simp] theorem setHalted_params (r : HaltReason) : (setHalted r s).params = s.params := rfl

@[simp] theorem reportIf_regs (d : Option Diag) : (reportIf d s).regs = s.regs := by cases d <;> simp [reportIf]
@[simp] theorem reportIf_pc (d : Option Diag) : (reportIf d s).pc = s.pc := by cases d <;> simp [reportIf]
@[simp] theorem reportIf_halted (d : Option Diag) : (reportIf d s).halted = s.halted := by cases d <;> simp [reportIf]
@[simp] theorem reportIf_mem (d : Option Diag) : (reportIf d s).mem = s.mem := by cases d <;> simp [reportIf]
@[simp] theorem reportIf_haltReason (d : Option Diag) : (reportIf d s).haltReason = s.haltReason := by cases d <;> simp [reportIf]
@[simp] theorem reportIf_trace (d : Option Diag) : (reportIf d s).trace = s.trace ++ d.toList.map .diag := by cases d <;> simp [reportIf]
@[simp] theorem reportIf_refusal (d : Option Diag) : (reportIf d s).refusal = s.refusal := by cases d <;> simp [reportIf]
@[simp] theorem reportIf_params (d : Option Diag) : (reportIf d s).params = s.params := by cases d <;> simp [reportIf]

/-! ## The commit of the pc -/

@[simp] theorem commitPc_regs (a : Word) : (commitPc a s).regs = s.regs := by unfold commitPc; split <;> simp_all
@[simp] theorem commitPc_pc (a : Word) : (commitPc a s).pc = if !s.halted || s.params.haltCommitsPc then a else s.pc := by unfold commitPc; split <;> simp_all
@[simp] theorem commitPc_halted (a : Word) : (commitPc a s).halted = s.halted := by unfold commitPc; split <;> simp_all
@[simp] theorem commitPc_mem (a : Word) : (commitPc a s).mem = s.mem := by unfold commitPc; split <;> simp_all
@[simp] theorem commitPc_haltReason (a : Word) : (commitPc a s).haltReason = s.haltReason := by unfold commitPc; split <;> simp_all
@[simp] theorem commitPc_trace (a : Word) : (commitPc a s).trace = s.trace := by unfold commitPc; split <;> simp_all
@[simp] theorem commitPc_refusal (a : Word) : (commitPc a s).refusal = s.refusal := by unfold commitPc; split <;> simp_all
@[simp] theorem commitPc_params (a : Word) : (commitPc a s).params = s.params := by unfold commitPc; split <;> simp_all

@[simp] theorem advance_regs : (advance s).regs = s.regs := by simp [advance]
@[simp] theorem advance_pc : (advance s).pc = if !s.halted || s.params.haltCommitsPc then s.pc + 4#32 else s.pc := by simp [advance]
@[simp] theorem advance_halted : (advance s).halted = s.halted := by simp [advance]
@[simp] theorem advance_mem : (advance s).mem = s.mem := by simp [advance]
@[simp] theorem advance_haltReason : (advance s).haltReason = s.haltReason := by simp [advance]
@[simp] theorem advance_trace : (advance s).trace = s.trace := by simp [advance]
@[simp] theorem advance_refusal : (advance s).refusal = s.refusal := by simp [advance]
@[simp] theorem advance_params : (advance s).params = s.params := by simp [advance]

/-! ## Taking a halt -/

@[simp] theorem takeHalt_regs (r : HaltReason) (d : Option Diag) : (takeHalt r d s).regs = s.regs := by simp [takeHalt]
@[simp] theorem takeHalt_pc (r : HaltReason) (d : Option Diag) : (takeHalt r d s).pc = if s.params.haltCommitsPc then s.pc + 4#32 else s.pc := by simp [takeHalt]
@[simp] theorem takeHalt_halted (r : HaltReason) (d : Option Diag) : (takeHalt r d s).halted = true := by simp [takeHalt]
@[simp] theorem takeHalt_mem (r : HaltReason) (d : Option Diag) : (takeHalt r d s).mem = s.mem := by simp [takeHalt]
@[simp] theorem takeHalt_haltReason (r : HaltReason) (d : Option Diag) : (takeHalt r d s).haltReason = some r := by simp [takeHalt]
@[simp] theorem takeHalt_trace (r : HaltReason) (d : Option Diag) : (takeHalt r d s).trace = s.trace ++ d.toList.map .diag := by simp [takeHalt]
@[simp] theorem takeHalt_refusal (r : HaltReason) (d : Option Diag) : (takeHalt r d s).refusal = s.refusal := by simp [takeHalt]
@[simp] theorem takeHalt_params (r : HaltReason) (d : Option Diag) : (takeHalt r d s).params = s.params := by simp [takeHalt]

/-! ## Registers -/

theorem writeReg_eq (i : Nat) (v : Word) (h : i < 32) : writeReg i v s = { s with regs := s.regs.set i v h } := by
  simp [writeReg, regSet, h]

/-- A rejected write changes nothing (R22). -/
theorem writeReg_out_of_range (i : Nat) (v : Word) (h : ¬ i < 32) : writeReg i v s = s := by
  simp [writeReg, regSet, h]

@[simp] theorem writeReg_pc (i : Nat) (v : Word) : (writeReg i v s).pc = s.pc := by
  unfold writeReg; split <;> rfl
@[simp] theorem writeReg_halted (i : Nat) (v : Word) : (writeReg i v s).halted = s.halted := by
  unfold writeReg; split <;> rfl
@[simp] theorem writeReg_mem (i : Nat) (v : Word) : (writeReg i v s).mem = s.mem := by
  unfold writeReg; split <;> rfl
@[simp] theorem writeReg_haltReason (i : Nat) (v : Word) : (writeReg i v s).haltReason = s.haltReason := by
  unfold writeReg; split <;> rfl
@[simp] theorem writeReg_trace (i : Nat) (v : Word) : (writeReg i v s).trace = s.trace := by
  unfold writeReg; split <;> rfl
@[simp] theorem writeReg_refusal (i : Nat) (v : Word) : (writeReg i v s).refusal = s.refusal := by
  unfold writeReg; split <;> rfl
@[simp] theorem writeReg_params (i : Nat) (v : Word) : (writeReg i v s).params = s.params := by
  unfold writeReg; split <;> rfl

/-- Register reads see the register file only. -/
theorem readReg_congr {s t : State} (h : t.regs = s.regs) (i : Nat) : readReg i t = readReg i s := by
  simp [readReg, h]

theorem readReg_lt (i : Nat) (h : i < 32) : readReg i s = s.regs[i] := by
  simp [readReg, regGet, h]

theorem readReg_out_of_range (i : Nat) (h : ¬ i < 32) : readReg i s = 0#32 := by
  simp [readReg, regGet, h]

/-- Reading the register just written (R22). -/
theorem readReg_writeReg_self (i : Nat) (v : Word) (h : i < 32) : readReg i (writeReg i v s) = v := by
  simp [writeReg_eq s i v h, readReg_lt _ i h]

/-- A write leaves every other register alone (R22). -/
theorem readReg_writeReg_ne (i j : Nat) (v : Word) (h : i ≠ j) : readReg i (writeReg j v s) = readReg i s := by
  by_cases hj : j < 32
  · by_cases hi : i < 32
    · simp [writeReg_eq s j v hj, readReg_lt _ i hi, Ne.symm h]
    · simp [readReg_out_of_range _ i hi]
  · simp [writeReg_out_of_range s j v hj]

@[simp] theorem readReg_emit (i : Nat) (v : Word) : readReg i (emit v s) = readReg i s := readReg_congr (by simp) i
@[simp] theorem readReg_report (i : Nat) (d : Diag) : readReg i (report d s) = readReg i s := readReg_congr (by simp) i
@[simp] theorem readReg_setHalted (i : Nat) (r : HaltReason) : readReg i (setHalted r s) = readReg i s := readReg_congr (by simp) i
@[simp] theorem readReg_commitPc (i : Nat) (a : Word) : readReg i (commitPc a s) = readReg i s := readReg_congr (by simp) i
@[simp] theorem readReg_advance (i : Nat) : readReg i (advance s) = readReg i s := readReg_congr (by simp) i
@[simp] theorem readReg_takeHalt (i : Nat) (r : HaltReason) (d : Option Diag) : readReg i (takeHalt r d s) = readReg i s := readReg_congr (by simp) i

/-- Two states with the same fields are the same. -/
theorem state_ext {s t : State} (h1 : s.regs = t.regs) (h2 : s.pc = t.pc) (h3 : s.halted = t.halted)
    (h4 : s.mem = t.mem) (h5 : s.haltReason = t.haltReason) (h6 : s.trace = t.trace)
    (h7 : s.refusal = t.refusal) (h8 : s.params = t.params) : s = t := by
  cases s; cases t; simp_all

/-- On a core that is not halted the commit is unconditional (R34). -/
theorem commitPc_running (a : Word) (h : s.halted = false) : commitPc a s = { s with pc := a } := by
  simp [commitPc, h]

/-! ## Branches -/

@[simp] theorem branch_regs (b : Bool) (imm : BitVec 16) : (branch b imm s).regs = s.regs := by
  unfold branch; split <;> simp
@[simp] theorem branch_halted (b : Bool) (imm : BitVec 16) : (branch b imm s).halted = s.halted := by
  unfold branch; split <;> simp
@[simp] theorem branch_mem (b : Bool) (imm : BitVec 16) : (branch b imm s).mem = s.mem := by
  unfold branch; split <;> simp
@[simp] theorem branch_haltReason (b : Bool) (imm : BitVec 16) : (branch b imm s).haltReason = s.haltReason := by
  unfold branch; split <;> simp
@[simp] theorem branch_trace (b : Bool) (imm : BitVec 16) : (branch b imm s).trace = s.trace := by
  unfold branch; split <;> simp
@[simp] theorem branch_refusal (b : Bool) (imm : BitVec 16) : (branch b imm s).refusal = s.refusal := by
  unfold branch; split <;> simp
@[simp] theorem branch_params (b : Bool) (imm : BitVec 16) : (branch b imm s).params = s.params := by
  unfold branch; split <;> simp

/-- Where a branch goes on a core that is not halted (R121, R122). -/
theorem branch_pc_running (b : Bool) (imm : BitVec 16) (h : s.halted = false) :
    (branch b imm s).pc = if b then branchTarget s.pc imm else s.pc + 4#32 := by
  cases b <;> simp [branch, h]

end Sys2Proof.Laws
end

