-- ==== Sys2Proof/Laws/Memory.lean ====
section
/-! SUPPORT. The memory's laws: a read after a write, what a write leaves alone, and that every memory
operation keeps the canonical form. -/

namespace Sys2Proof.Laws

open Sys2Proof.Machine

/-- Addresses strictly rising. -/
abbrev Rising (l : List Host.Cell) : Prop := l.Pairwise fun c d => c.1 < d.1

/-! ## One byte -/

/-- An address no entry lists reads as the unlisted byte. -/
theorem cellsGet_unlisted (l : List Host.Cell) (a : Nat) (h : ∀ c ∈ l, c.1 ≠ a) : cellsGet l a = unlistedByte := by
  induction l with
  | nil => rfl
  | cons c rest ih =>
    simp only [List.mem_cons, forall_eq_or_imp] at h
    simp [cellsGet, h.1, ih h.2]

/-- Writing a byte leaves every other address alone. -/
theorem cellsGet_cellsSet_ne (l : List Host.Cell) (a k : Nat) (v : Byte) (h : a ≠ k) :
    cellsGet (cellsSet l k v) a = cellsGet l a := by
  induction l with
  | nil => by_cases hv : v = unlistedByte <;> simp [cellsSet, cellsGet, hv, Ne.symm h]
  | cons c rest ih =>
    unfold cellsSet
    split
    · split <;> simp [cellsGet, Ne.symm h]
    · split
      · rename_i hk
        have hc : ¬ c.1 = a := by omega
        split <;> simp [cellsGet, hc, Ne.symm h]
      · simp [cellsGet, ih]

/-- A byte just written reads as written. -/
theorem cellsGet_cellsSet_self (l : List Host.Cell) (k : Nat) (v : Byte) (h : Rising l) :
    cellsGet (cellsSet l k v) k = v := by
  induction l with
  | nil => by_cases hv : v = unlistedByte <;> simp [cellsSet, cellsGet, hv]
  | cons c rest ih =>
    obtain ⟨hc, hr⟩ := List.pairwise_cons.mp h
    unfold cellsSet
    split
    · rename_i hk
      split
      · rename_i hv
        rw [hv]
        refine cellsGet_unlisted _ _ fun d hd => ?_
        rcases List.mem_cons.mp hd with rfl | hd
        · omega
        · have := hc d hd; omega
      · simp [cellsGet]
    · split
      · split
        · rename_i hk hv
          rw [hv]
          exact cellsGet_unlisted _ _ fun d hd => by have := hc d hd; omega
        · simp [cellsGet]
      · rename_i hk
        simp [cellsGet, Ne.symm hk, ih hr]

/-- Where the entries after a write come from. -/
theorem mem_cellsSet {l : List Host.Cell} {k : Nat} {v : Byte} {c : Host.Cell} (h : c ∈ cellsSet l k v) :
    c ∈ l ∨ (c = (k, v) ∧ v ≠ unlistedByte) := by
  induction l with
  | nil =>
    by_cases hv : v = unlistedByte
    · simp [cellsSet, hv] at h
    · simp only [cellsSet, if_neg hv, List.mem_singleton] at h
      exact .inr ⟨h, hv⟩
  | cons d rest ih =>
    unfold cellsSet at h
    split at h
    · split at h
      · exact .inl h
      · rename_i hv
        rcases List.mem_cons.mp h with h | h
        · exact .inr ⟨h, hv⟩
        · exact .inl h
    · split at h
      · split at h
        · exact .inl (List.mem_cons_of_mem _ h)
        · rename_i hv
          rcases List.mem_cons.mp h with h | h
          · exact .inr ⟨h, hv⟩
          · exact .inl (List.mem_cons_of_mem _ h)
      · rcases List.mem_cons.mp h with h | h
        · exact .inl (h ▸ List.mem_cons_self)
        · rcases ih h with h | h
          · exact .inl (List.mem_cons_of_mem _ h)
          · exact .inr h

/-- A write keeps the addresses rising. -/
theorem cellsSet_rising (l : List Host.Cell) (k : Nat) (v : Byte) (h : Rising l) : Rising (cellsSet l k v) := by
  induction l with
  | nil => by_cases hv : v = unlistedByte <;> simp [cellsSet, hv, Rising]
  | cons c rest ih =>
    obtain ⟨hc, hr⟩ := List.pairwise_cons.mp h
    unfold cellsSet
    split
    · rename_i hk
      split
      · exact h
      · refine List.pairwise_cons.mpr ⟨fun d hd => ?_, h⟩
        rcases List.mem_cons.mp hd with rfl | hd
        · exact hk
        · exact Nat.lt_trans hk (hc d hd)
    · split
      · rename_i hk
        split
        · exact hr
        · exact List.pairwise_cons.mpr ⟨fun d hd => by have := hc d hd; simp only; omega, hr⟩
      · refine List.pairwise_cons.mpr ⟨fun d hd => ?_, ih hr⟩
        rcases mem_cellsSet hd with hd | ⟨rfl, -⟩
        · exact hc d hd
        · simp only; omega

/-! ## Consecutive bytes -/

theorem cellsSetMany_rising (l : List Host.Cell) (a : Nat) (bs : List Byte) (h : Rising l) :
    Rising (cellsSetMany l a bs) := by
  induction bs generalizing l a with
  | nil => exact h
  | cons b bs ih => exact ih _ _ (cellsSet_rising l a b h)

theorem mem_cellsSetMany {l : List Host.Cell} {a : Nat} {bs : List Byte} {c : Host.Cell}
    (h : c ∈ cellsSetMany l a bs) : c ∈ l ∨ (a ≤ c.1 ∧ c.1 < a + bs.length ∧ c.2 ≠ unlistedByte) := by
  induction bs generalizing l a with
  | nil => exact .inl h
  | cons b bs ih =>
    rcases ih h with h | ⟨h1, h2, h3⟩
    · rcases mem_cellsSet h with h | ⟨rfl, hb⟩
      · exact .inl h
      · exact .inr ⟨Nat.le_refl _, by simp, hb⟩
    · exact .inr ⟨by omega, by simp only [List.length_cons]; omega, h3⟩

theorem cellsGet_cellsSetMany_outside (l : List Host.Cell) (a k : Nat) (bs : List Byte)
    (h : k < a ∨ a + bs.length ≤ k) : cellsGet (cellsSetMany l a bs) k = cellsGet l k := by
  induction bs generalizing l a with
  | nil => rfl
  | cons b bs ih =>
    simp only [List.length_cons] at h
    simp only [cellsSetMany]
    rw [ih _ _ (by omega), cellsGet_cellsSet_ne _ _ _ _ (by omega)]

theorem cellsGet_cellsSetMany_inside (l : List Host.Cell) (a k : Nat) (bs : List Byte) (hl : Rising l)
    (h : k < bs.length) : cellsGet (cellsSetMany l a bs) (a + k) = bs[k] := by
  induction bs generalizing l a k with
  | nil => simp at h
  | cons b bs ih =>
    cases k with
    | zero =>
      simp only [cellsSetMany, Nat.add_zero, List.getElem_cons_zero]
      rw [cellsGet_cellsSetMany_outside _ _ _ _ (by omega), cellsGet_cellsSet_self _ _ _ hl]
    | succ k =>
      simp only [List.length_cons] at h
      have := ih _ (a + 1) k (cellsSet_rising l a b hl) (by omega)
      simp only [cellsSetMany, List.getElem_cons_succ]
      rw [← this]
      congr 1
      omega

/-! ## storeBytes: the one write of memory (R44, R64) -/

@[simp] theorem storeBytes_size (m : Memory) (a : Nat) (bs : List Byte) :
    (storeBytes m a bs).size = max m.size (a + bs.length) := rfl

theorem cellsSetMany_append (l : List Host.Cell) (a : Nat) (bs cs : List Byte) :
    cellsSetMany (cellsSetMany l a bs) (a + bs.length) cs = cellsSetMany l a (bs ++ cs) := by
  induction bs generalizing l a with
  | nil => rfl
  | cons b bs ih =>
    simp only [List.cons_append, cellsSetMany, List.length_cons]
    rw [← ih, show a + (bs.length + 1) = a + 1 + bs.length by omega]

/-- Two adjoining stores are one store of both byte sequences. -/
theorem storeBytes_append (m : Memory) (a : Nat) (bs cs : List Byte) :
    storeBytes (storeBytes m a bs) (a + bs.length) cs = storeBytes m a (bs ++ cs) := by
  simp only [storeBytes, cellsSetMany_append, List.length_append, Memory.mk.injEq, and_true]
  omega

/-- A store keeps the canonical form of the memory. -/
theorem storeBytes_wf (m : Memory) (a : Nat) (bs : List Byte) (h : m.wf) (ha : a + bs.length ≤ 2 ^ 32) :
    (storeBytes m a bs).wf := by
  obtain ⟨h1, h2, h3⟩ := h
  refine ⟨cellsSetMany_rising _ _ _ h1, fun c hc => ?_, by simp; omega⟩
  rcases mem_cellsSetMany hc with hc | ⟨-, hlt, hne⟩
  · exact ⟨by have := (h2 c hc).1; simp; omega, (h2 c hc).2⟩
  · exact ⟨by simp; omega, hne⟩

/-- A store leaves every byte outside it alone, and the bytes it grows by read as they did: zero. -/
theorem byteAt_storeBytes_outside (m : Memory) (a k : Nat) (bs : List Byte) (h : k < a ∨ a + bs.length ≤ k) :
    byteAt (storeBytes m a bs) k = byteAt m k :=
  cellsGet_cellsSetMany_outside _ _ _ _ h

/-- A byte just stored reads as stored. -/
theorem byteAt_storeBytes_inside (m : Memory) (a k : Nat) (bs : List Byte) (hm : m.wf) (h : k < bs.length) :
    byteAt (storeBytes m a bs) (a + k) = bs[k] :=
  cellsGet_cellsSetMany_inside _ _ _ _ hm.1 h

/-- No byte beyond the size is listed: growth fills with zero (R64, R79). -/
theorem byteAt_beyond (m : Memory) (k : Nat) (hm : m.wf) (h : m.size ≤ k) : byteAt m k = unlistedByte :=
  cellsGet_unlisted _ _ fun c hc => by have := (hm.2.1 c hc).1; omega

/-- The memory after reset is canonical. -/
theorem reset_memory_wf : State.reset.mem.wf := by decide

/-! ## Words (R62) -/

@[simp] theorem wordBytes_length (w : Word) : (wordBytes w).length = 4 := rfl

/-- Concatenation as arithmetic, the high part first (R11). -/
theorem toNat_append_eq {m n : Nat} (x : BitVec m) (y : BitVec n) :
    (x ++ y).toNat = x.toNat * 2 ^ n + y.toNat := by
  rw [BitVec.toNat_append, ← Nat.shiftLeft_add_eq_or_of_lt y.isLt, Nat.shiftLeft_eq]

/-- A bit field as arithmetic (R10). -/
theorem toNat_extract_eq {n : Nat} (x : BitVec n) (lo len : Nat) :
    (x.extractLsb' lo len).toNat = x.toNat / 2 ^ lo % 2 ^ len := by
  rw [BitVec.extractLsb'_toNat, Nat.shiftRight_eq_div_pow]

/-- Splitting a word into its bytes and joining them gives the word. -/
theorem wordOfBytes_split (w : Word) :
    wordOfBytes (w.extractLsb' 0 8) (w.extractLsb' 8 8) (w.extractLsb' 16 8) (w.extractLsb' 24 8) = w := by
  apply BitVec.eq_of_toNat_eq
  simp only [wordOfBytes, toNat_append_eq, toNat_extract_eq]
  have := w.isLt
  omega

/-- The word at an address where a word was just stored is that word. -/
theorem wordAt_storeBytes_self (m : Memory) (a : Nat) (w : Word) (hm : m.wf) :
    wordAt (storeBytes m a (wordBytes w)) a = w := by
  have h := fun k hk => byteAt_storeBytes_inside m a k (wordBytes w) hm hk
  unfold wordAt
  have h0 := h 0 (by simp)
  rw [Nat.add_zero] at h0
  rw [h0, h 1 (by simp), h 2 (by simp), h 3 (by simp)]
  exact wordOfBytes_split w

/-! ## The memory primitives: everything they can do -/

theorem pastTop_iff (addr : Word) : pastTop addr = true ↔ 2 ^ 32 < addr.toNat + 4 := by
  simp only [pastTop, decide_eq_true_eq, BitVec.lt_def]
  norm_num
  omega

theorem pairPastTop_iff (addr : Word) : pairPastTop addr = true ↔ 2 ^ 32 < addr.toNat + 8 := by
  simp only [pairPastTop, decide_eq_true_eq, BitVec.lt_def]
  norm_num
  omega

/-- If `memRead` answers, it read inside the memory and changed nothing, or it read 0 out of range and
reported (R63). -/
theorem memRead_ok {addr : Word} {s : State} {p : Word × State} (h : memRead addr s = .ok p) :
    addr.toNat + 4 ≤ 2 ^ 32 ∧
    ((addr.toNat + 4 ≤ s.mem.size ∧ p = (wordAt s.mem addr.toNat, s)) ∨
     (s.mem.size < addr.toNat + 4 ∧ p = (0#32, report (.oorRead addr) s))) := by
  unfold memRead at h
  split at h
  · cases h
  · rename_i hp
    have hp' : ¬ 2 ^ 32 < addr.toNat + 4 := fun hc => hp ((pastTop_iff addr).mpr hc)
    split at h <;> injection h with h
    · exact ⟨by omega, .inr ⟨by assumption, h.symm⟩⟩
    · exact ⟨by omega, .inl ⟨by omega, h.symm⟩⟩

/-- If `memRead` refuses, it is past the top (R66). -/
theorem memRead_error {addr : Word} {s : State} {r : Refusal} (h : memRead addr s = .error r) :
    r = .topOfMemory ∧ 2 ^ 32 < addr.toNat + 4 := by
  unfold memRead at h
  split at h
  · rename_i hp
    injection h with h
    exact ⟨h.symm, (pastTop_iff addr).mp hp⟩
  · split at h <;> cases h

/-- If `memWrite` answers, it stored the word's four bytes and changed nothing but the memory (R64). -/
theorem memWrite_ok {addr v : Word} {s t : State} (h : memWrite addr v s = .ok t) :
    addr.toNat + 4 ≤ 2 ^ 32 ∧ t = { s with mem := storeBytes s.mem addr.toNat (wordBytes v) } := by
  unfold memWrite at h
  split at h
  · cases h
  · rename_i hp
    have hp' : ¬ 2 ^ 32 < addr.toNat + 4 := fun hc => hp ((pastTop_iff addr).mpr hc)
    injection h with h
    exact ⟨by omega, h.symm⟩

/-- If `memWrite` refuses, it is past the top (R66). -/
theorem memWrite_error {addr v : Word} {s : State} {r : Refusal} (h : memWrite addr v s = .error r) :
    r = .topOfMemory ∧ 2 ^ 32 < addr.toNat + 4 := by
  unfold memWrite at h
  split at h
  · rename_i hp
    injection h with h
    exact ⟨h.symm, (pastTop_iff addr).mp hp⟩
  · cases h

/-- `memRead` below the top and inside the memory. -/
theorem memRead_inside {addr : Word} {s : State} (h1 : addr.toNat + 4 ≤ 2 ^ 32)
    (h2 : addr.toNat + 4 ≤ s.mem.size) : memRead addr s = .ok (wordAt s.mem addr.toNat, s) := by
  have hp : ¬ pastTop addr = true := fun hc => by have := (pastTop_iff addr).mp hc; omega
  have h3 : ¬ s.mem.size < addr.toNat + 4 := by omega
  simp [memRead, hp, h3]

/-- `memRead` below the top and out of range. -/
theorem memRead_outside {addr : Word} {s : State} (h1 : addr.toNat + 4 ≤ 2 ^ 32)
    (h2 : s.mem.size < addr.toNat + 4) : memRead addr s = .ok (0#32, report (.oorRead addr) s) := by
  have hp : ¬ pastTop addr = true := fun hc => by have := (pastTop_iff addr).mp hc; omega
  simp [memRead, hp, h2]

/-- `memWrite` below the top. -/
theorem memWrite_below {addr v : Word} {s : State} (h : addr.toNat + 4 ≤ 2 ^ 32) :
    memWrite addr v s = .ok { s with mem := storeBytes s.mem addr.toNat (wordBytes v) } := by
  have hp : ¬ pastTop addr = true := fun hc => by have := (pastTop_iff addr).mp hc; omega
  simp [memWrite, hp]

end Sys2Proof.Laws
end

