-- ==== Sys2Proof/Laws/Decode.lean ====
section
/-! SUPPORT. The fields of an encoded word (spec/30_encoding.md R92, R93), one lemma per format and field. -/

namespace Sys2Proof.Laws

/-- A register operand that fits its field survives it. -/
theorem regField_toNat {r : Nat} (h : r < 32) : (regField r).toNat = r := by
  simp [regField, Nat.mod_eq_of_lt h]

/-- A word is one of the others' fields exactly when its number's digits are. -/
theorem fieldOp_toNat (w : Word) : (fieldOp w).toNat = w.toNat / 2 ^ 26 % 2 ^ 6 := toNat_extract_eq _ _ _
theorem fieldA_eq (w : Word) : fieldA w = w.toNat / 2 ^ 21 % 2 ^ 5 := toNat_extract_eq _ _ _
theorem fieldB_eq (w : Word) : fieldB w = w.toNat / 2 ^ 16 % 2 ^ 5 := toNat_extract_eq _ _ _
theorem fieldC_eq (w : Word) : fieldC w = w.toNat / 2 ^ 11 % 2 ^ 5 := toNat_extract_eq _ _ _
theorem fieldImm5_toNat (w : Word) : (fieldImm5 w).toNat = w.toNat / 2 ^ 11 % 2 ^ 5 := toNat_extract_eq _ _ _
theorem fieldImm16_toNat (w : Word) : (fieldImm16 w).toNat = w.toNat / 2 ^ 0 % 2 ^ 16 := toNat_extract_eq _ _ _
theorem fieldOff11_toNat (w : Word) : (fieldOff11 w).toNat = w.toNat / 2 ^ 0 % 2 ^ 11 := toNat_extract_eq _ _ _
theorem fieldIndex_toNat (w : Word) : (fieldIndex w).toNat = w.toNat / 2 ^ 0 % 2 ^ 26 := toNat_extract_eq _ _ _
theorem fieldCode_toNat (w : Word) : (fieldCode w).toNat = w.toNat / 2 ^ 6 % 2 ^ 18 := toNat_extract_eq _ _ _
theorem fieldFunct_toNat (w : Word) : (fieldFunct w).toNat = w.toNat / 2 ^ 0 % 2 ^ 6 := toNat_extract_eq _ _ _

/-- Every register field is an index the register file has (R92). -/
theorem fieldA_lt (w : Word) : fieldA w < 32 := (w.extractLsb' 21 5).isLt
theorem fieldB_lt (w : Word) : fieldB w < 32 := (w.extractLsb' 16 5).isLt
theorem fieldC_lt (w : Word) : fieldC w < 32 := (w.extractLsb' 11 5).isLt

/-! ## The number an encoding is -/

theorem encodeI16_toNat (op : BitVec 6) (a b : Nat) (imm : BitVec 16) :
    (encodeI16 op a b imm).toNat = ((op.toNat * 2 ^ 5 + a % 2 ^ 5) * 2 ^ 5 + b % 2 ^ 5) * 2 ^ 16 + imm.toNat := by
  simp only [encodeI16, toNat_append_eq, regField, BitVec.toNat_ofNat]

theorem encodeR_toNat (a b c : Nat) (f : BitVec 6) :
    (encodeR a b c f).toNat =
      (((a % 2 ^ 5) * 2 ^ 5 + b % 2 ^ 5) * 2 ^ 5 + c % 2 ^ 5) * 2 ^ 11 + f.toNat := by
  simp only [encodeR, toNat_append_eq, regField, BitVec.toNat_ofNat]
  omega

theorem encodeI5_toNat (op : BitVec 6) (a b : Nat) (imm : BitVec 5) :
    (encodeI5 op a b imm).toNat =
      (((op.toNat * 2 ^ 5 + a % 2 ^ 5) * 2 ^ 5 + b % 2 ^ 5) * 2 ^ 5 + imm.toNat) * 2 ^ 11 := by
  simp only [encodeI5, toNat_append_eq, regField, BitVec.toNat_ofNat]
  omega

theorem encodeJ_toNat (op : BitVec 6) (index : BitVec 26) :
    (encodeJ op index).toNat = op.toNat * 2 ^ 26 + index.toNat := toNat_append_eq _ _

theorem encodeSys_toNat (code : BitVec 18) (f : BitVec 6) :
    (encodeSys code f).toNat = code.toNat * 2 ^ 6 + f.toNat := by
  simp only [encodeSys, toNat_append_eq, BitVec.toNat_ofNat]
  omega

theorem encodeP_toNat (op : BitVec 6) (a b c : Nat) (off : BitVec 11) :
    (encodeP op a b c off).toNat =
      (((op.toNat * 2 ^ 5 + a % 2 ^ 5) * 2 ^ 5 + b % 2 ^ 5) * 2 ^ 5 + c % 2 ^ 5) * 2 ^ 11 + off.toNat := by
  simp only [encodeP, toNat_append_eq, regField, BitVec.toNat_ofNat]

/-! ## Format J -/

section
variable (op : BitVec 6) (index : BitVec 26)

@[simp] theorem fieldOp_encodeJ : fieldOp (encodeJ op index) = op := by
  apply BitVec.eq_of_toNat_eq
  rw [fieldOp_toNat, encodeJ_toNat]
  have := op.isLt; have := index.isLt
  omega

@[simp] theorem fieldIndex_encodeJ : fieldIndex (encodeJ op index) = index := by
  apply BitVec.eq_of_toNat_eq
  rw [fieldIndex_toNat, encodeJ_toNat]
  have := index.isLt
  omega

end

/-! ## Format SYS -/

section
variable (code : BitVec 18) (f : BitVec 6)

@[simp] theorem fieldOp_encodeSys : fieldOp (encodeSys code f) = 0#6 := by
  apply BitVec.eq_of_toNat_eq
  rw [fieldOp_toNat, encodeSys_toNat, BitVec.toNat_ofNat]
  have := code.isLt; have := f.isLt
  omega

@[simp] theorem fieldFunct_encodeSys : fieldFunct (encodeSys code f) = f := by
  apply BitVec.eq_of_toNat_eq
  rw [fieldFunct_toNat, encodeSys_toNat]
  have := f.isLt
  omega

@[simp] theorem fieldCode_encodeSys : fieldCode (encodeSys code f) = code := by
  apply BitVec.eq_of_toNat_eq
  rw [fieldCode_toNat, encodeSys_toNat]
  have := code.isLt; have := f.isLt
  omega

end

/-! ## Format P: STP -/

section
variable (op : BitVec 6) (a b c : Nat) (off : BitVec 11)

@[simp] theorem fieldOp_encodeP : fieldOp (encodeP op a b c off) = op := by
  apply BitVec.eq_of_toNat_eq
  rw [fieldOp_toNat, encodeP_toNat]
  have := op.isLt; have := off.isLt
  omega

theorem fieldA_encodeP (h : a < 32) : fieldA (encodeP op a b c off) = a := by
  rw [fieldA_eq, encodeP_toNat]
  have := op.isLt; have := off.isLt
  omega

theorem fieldB_encodeP (h : b < 32) : fieldB (encodeP op a b c off) = b := by
  rw [fieldB_eq, encodeP_toNat]
  have := op.isLt; have := off.isLt
  omega

theorem fieldC_encodeP (h : c < 32) : fieldC (encodeP op a b c off) = c := by
  rw [fieldC_eq, encodeP_toNat]
  have := op.isLt; have := off.isLt
  omega

@[simp] theorem fieldOff11_encodeP : fieldOff11 (encodeP op a b c off) = off := by
  apply BitVec.eq_of_toNat_eq
  rw [fieldOff11_toNat, encodeP_toNat]
  have := off.isLt
  omega

end

/-! ## Format I16: SLTI, ST, BNE, BEQ, LD -/

section
variable (op : BitVec 6) (a b : Nat) (imm : BitVec 16)

@[simp] theorem fieldOp_encodeI16 : fieldOp (encodeI16 op a b imm) = op := by
  apply BitVec.eq_of_toNat_eq
  rw [fieldOp_toNat, encodeI16_toNat]
  have := op.isLt; have := imm.isLt
  omega

theorem fieldA_encodeI16 (h : a < 32) : fieldA (encodeI16 op a b imm) = a := by
  rw [fieldA_eq, encodeI16_toNat]
  have := op.isLt; have := imm.isLt
  omega

theorem fieldB_encodeI16 (h : b < 32) : fieldB (encodeI16 op a b imm) = b := by
  rw [fieldB_eq, encodeI16_toNat]
  have := op.isLt; have := imm.isLt
  omega

@[simp] theorem fieldImm16_encodeI16 : fieldImm16 (encodeI16 op a b imm) = imm := by
  apply BitVec.eq_of_toNat_eq
  rw [fieldImm16_toNat, encodeI16_toNat]
  have := imm.isLt
  omega

end

/-! ## Format R: ADD, AND, BDEP, CLS -/

section
variable (a b c : Nat) (f : BitVec 6)

@[simp] theorem fieldOp_encodeR : fieldOp (encodeR a b c f) = 0#6 := by
  apply BitVec.eq_of_toNat_eq
  rw [fieldOp_toNat, encodeR_toNat]
  have := f.isLt
  simp only [BitVec.toNat_ofNat]
  omega

@[simp] theorem fieldFunct_encodeR : fieldFunct (encodeR a b c f) = f := by
  apply BitVec.eq_of_toNat_eq
  rw [fieldFunct_toNat, encodeR_toNat]
  have := f.isLt
  omega

theorem fieldA_encodeR (h : a < 32) : fieldA (encodeR a b c f) = a := by
  rw [fieldA_eq, encodeR_toNat]
  have := f.isLt
  omega

theorem fieldB_encodeR (h : b < 32) : fieldB (encodeR a b c f) = b := by
  rw [fieldB_eq, encodeR_toNat]
  have := f.isLt
  omega

theorem fieldC_encodeR (h : c < 32) : fieldC (encodeR a b c f) = c := by
  rw [fieldC_eq, encodeR_toNat]
  have := f.isLt
  omega

end

/-! ## Format I5: RORI, SSAT -/

section
variable (op : BitVec 6) (a b : Nat) (imm : BitVec 5)

@[simp] theorem fieldOp_encodeI5 : fieldOp (encodeI5 op a b imm) = op := by
  apply BitVec.eq_of_toNat_eq
  rw [fieldOp_toNat, encodeI5_toNat]
  have := op.isLt; have := imm.isLt
  omega

theorem fieldA_encodeI5 (h : a < 32) : fieldA (encodeI5 op a b imm) = a := by
  rw [fieldA_eq, encodeI5_toNat]
  have := op.isLt; have := imm.isLt
  omega

theorem fieldB_encodeI5 (h : b < 32) : fieldB (encodeI5 op a b imm) = b := by
  rw [fieldB_eq, encodeI5_toNat]
  have := op.isLt; have := imm.isLt
  omega

@[simp] theorem fieldImm5_encodeI5 : fieldImm5 (encodeI5 op a b imm) = imm := by
  apply BitVec.eq_of_toNat_eq
  rw [fieldImm5_toNat, encodeI5_toNat]
  have := imm.isLt
  omega

end

/-! ## What a decoded word's instruction is -/

/-- A decoded instruction's register operands are in range (R92). -/
theorem decodeWord_registers {w : Word} {i : Instr} (h : decodeWord w = .ok i) : ∀ r ∈ i.registers, r < 32 := by
  have hA := fieldA_lt w
  have hB := fieldB_lt w
  have hC := fieldC_lt w
  simp only [decodeWord, decodeFunct, decodePrimary] at h
  (repeat' split at h) <;> cases h <;> simp [Instr.registers, hA, hB, hC]

end Sys2Proof.Laws
end

