-- ==== Sys2Proof/Laws/Ops.lean ====
section
/-! SUPPORT. One lemma per shared operation that says everything it can do, for the provers to cite
instead of unfolding it; the last ones say it of exec and of step. -/

namespace Sys2Proof.Laws

open Sys2Proof.Machine

variable {s t : State} {k : State → Host.Outcome State Fault Refusal}

/-! ## The register-index check (R33) -/

theorem badIndex_none {is : List Nat} : badIndex is = none ↔ ∀ i ∈ is, i < 32 := by
  simp [badIndex]

theorem badIndex_some {is : List Nat} {i : Nat} (h : badIndex is = some i) : i ∈ is ∧ ¬ i < 32 := by
  have h1 := List.mem_of_find?_eq_some h
  have h2 := List.find?_some h
  simp at h2
  exact ⟨h1, by omega⟩

/-- With every index in range the check does nothing. -/
theorem withRegs_ok {is : List Nat} (h : ∀ i ∈ is, i < 32) : withRegs is s k = k s := by
  simp [withRegs, badIndex_none.mpr h]

/-- The check passes, or the first bad index halts. -/
theorem withRegs_cases (is : List Nat) (s : State) (k : State → Host.Outcome State Fault Refusal) :
    ((∀ i ∈ is, i < 32) ∧ withRegs is s k = k s) ∨
    (∃ i ∈ is, ¬ i < 32 ∧ withRegs is s k = .next (takeHalt .badRegister (some (.badRegister s.pc i)) s)) := by
  cases h : badIndex is with
  | none => exact .inl ⟨badIndex_none.mp h, by simp [withRegs, h]⟩
  | some i => exact .inr ⟨i, (badIndex_some h).1, (badIndex_some h).2, by simp [withRegs, h]⟩

/-! ## The alignment check (R160) -/

theorem withAligned_ok {v : Word} (h : aligned4 v = true) : withAligned v s k = k s := by
  simp [withAligned, h]

theorem withAligned_bad {v : Word} (h : aligned4 v = false) :
    withAligned v s k = .next (takeHalt .misaligned (some (.misaligned s.pc v)) s) := by
  simp [withAligned, h]

/-- An aligned value is a multiple of 4. -/
theorem aligned4_iff (v : Word) : aligned4 v = true ↔ v.toNat % 4 = 0 := by
  simp only [aligned4, beq_iff_eq, ← BitVec.toNat_inj, toNat_extract_eq]
  simp

/-! ## STP's pair of writes (R150) -/

/-- If the pair of writes answers, both were made, and nothing but the memory changed. -/
theorem storePair_ok {addr v1 v2 : Word} (h : storePair addr v1 v2 s = .ok t) :
    addr.toNat + 8 ≤ 2 ^ 32 ∧
    t = { s with mem := storeBytes s.mem addr.toNat (wordBytes v1 ++ wordBytes v2) } := by
  unfold storePair at h
  split at h
  · cases h
  · rename_i hp
    have hp' : ¬ 2 ^ 32 < addr.toNat + 8 := fun hc => hp ((pairPastTop_iff addr).mpr hc)
    have ha : (addr + 4#32).toNat = addr.toNat + 4 := by
      rw [BitVec.toNat_add, show (4#32).toNat = 4 from rfl]; omega
    rw [memWrite_below (by omega)] at h
    simp only at h
    rw [memWrite_below (by omega), ha] at h
    injection h with h
    refine ⟨by omega, ?_⟩
    rw [← h, ← storeBytes_append, wordBytes_length]

/-- If the pair of writes refuses, it would pass the top, and neither was made. -/
theorem storePair_error {addr v1 v2 : Word} {r : Refusal} (h : storePair addr v1 v2 s = .error r) :
    r = .topOfMemory ∧ 2 ^ 32 < addr.toNat + 8 := by
  unfold storePair at h
  split at h
  · rename_i hp
    injection h with h
    exact ⟨h.symm, (pairPastTop_iff addr).mp hp⟩
  · rename_i hp
    have hp' : ¬ 2 ^ 32 < addr.toNat + 8 := fun hc => hp ((pairPastTop_iff addr).mpr hc)
    have ha : (addr + 4#32).toNat = addr.toNat + 4 := by
      rw [BitVec.toNat_add, show (4#32).toNat = 4 from rfl]; omega
    rw [memWrite_below (by omega)] at h
    simp only at h
    rw [memWrite_below (by omega)] at h
    cases h

/-- The pair of writes below the top. -/
theorem storePair_below {addr v1 v2 : Word} (h : addr.toNat + 8 ≤ 2 ^ 32) :
    storePair addr v1 v2 s =
      .ok { s with mem := storeBytes s.mem addr.toNat (wordBytes v1 ++ wordBytes v2) } := by
  cases hr : storePair addr v1 v2 s with
  | ok u => rw [(storePair_ok hr).2]
  | error r => have := (storePair_error hr).2; omega

/-! ## Everything an instruction can do -/

/-- What one instruction does before its step commits the pc. -/
inductive Effect (s : State) : State → Prop where
  | nothing : Effect s s
  | event (e : Event) : Effect s { s with trace := s.trace ++ [e] }
  | write (i : Nat) (v : Word) : Effect s (writeReg i v s)
  | loadOutside (i : Nat) (addr : Word) (h : s.mem.size < addr.toNat + 4) :
      Effect s (writeReg i 0#32 (report (.oorRead addr) s))
  | store (addr : Word) (bs : List Byte) (h : addr.toNat + bs.length ≤ 2 ^ 32) :
      Effect s { s with mem := storeBytes s.mem addr.toNat bs }
  | halt (r : HaltReason) (d : Option Diag) : Effect s (setHalted r (reportIf d s))

/-- Where one instruction sends the pc: to the next instruction, to a J's or to a branch's target. -/
inductive NextPc (s : State) : Word → Prop where
  | next : NextPc s (s.pc + 4#32)
  | jump (index : BitVec 26) : NextPc s (jumpTarget s.pc index)
  | branch (imm16 : BitVec 16) : NextPc s (branchTarget s.pc imm16)

/-- An outcome that, if it is a next state, is one effect and one commit. -/
def Summed (s : State) (o : Host.Outcome State Fault Refusal) : Prop :=
  ∀ t, o = .next t → ∃ u a, Effect s u ∧ NextPc s a ∧ t = commitPc a u

theorem summed_takeHalt (r : HaltReason) (d : Option Diag) : Summed s (.next (takeHalt r d s)) := by
  intro t ht
  injection ht with ht
  refine ⟨_, _, .halt r d, .next, ?_⟩
  rw [← ht]
  simp [takeHalt, advance]

theorem summed_withRegs {is : List Nat} (h : Summed s (k s)) : Summed s (withRegs is s k) := by
  rcases withRegs_cases is s k with ⟨-, e⟩ | ⟨i, -, -, e⟩ <;> rw [e]
  · exact h
  · exact summed_takeHalt _ _

theorem summed_withAligned {v : Word} (h : Summed s (k s)) : Summed s (withAligned v s k) := by
  unfold withAligned
  split
  · exact h
  · exact summed_takeHalt _ _

theorem summed_finishAlu (i : Nat) (v : Word) : Summed s (finishAlu i v s) := by
  intro t ht
  injection ht with ht
  exact ⟨_, _, .write i v, .next, by rw [← ht]; simp [advance]⟩

theorem summed_branch (b : Bool) (imm : BitVec 16) : Summed s (.next (branch b imm s)) := by
  intro t ht
  injection ht with ht
  cases b
  · exact ⟨_, _, .nothing, .next, by rw [← ht]; simp [branch, advance]⟩
  · exact ⟨_, _, .nothing, .branch imm, by rw [← ht]; simp [branch]⟩

theorem summed_store {addr v : Word} : Summed s (finishStore (memWrite addr v s)) := by
  intro t ht
  cases h : memWrite addr v s with
  | error r => simp [finishStore, h] at ht
  | ok u =>
    obtain ⟨ha, rfl⟩ := memWrite_ok h
    simp only [finishStore, h] at ht
    injection ht with ht
    exact ⟨_, _, .store addr (wordBytes v) ha, .next, by rw [← ht]; simp [advance]⟩

theorem summed_storePair {addr v1 v2 : Word} : Summed s (finishStore (storePair addr v1 v2 s)) := by
  intro t ht
  cases h : storePair addr v1 v2 s with
  | error r => simp [finishStore, h] at ht
  | ok u =>
    obtain ⟨ha, rfl⟩ := storePair_ok h
    simp only [finishStore, h] at ht
    injection ht with ht
    exact ⟨_, _, .store addr (wordBytes v1 ++ wordBytes v2) ha, .next, by rw [← ht]; simp [advance]⟩

theorem summed_load {i : Nat} {addr : Word} : Summed s (finishLoad i (memRead addr s)) := by
  intro t ht
  cases h : memRead addr s with
  | error r => simp [finishLoad, h] at ht
  | ok p =>
    rcases (memRead_ok h).2 with ⟨-, rfl⟩ | ⟨ho, rfl⟩ <;> simp only [finishLoad, h] at ht <;>
      injection ht with ht
    · exact ⟨_, _, .write i (wordAt s.mem addr.toNat), .next, by rw [← ht]; simp [advance]⟩
    · exact ⟨_, _, .loadOutside i addr ho, .next, by rw [← ht]; simp [advance]⟩

theorem summed_syscall (code : BitVec 18) : Summed s (execSyscall code s) := by
  unfold execSyscall
  split
  · exact summed_takeHalt _ _
  · split <;> intro t ht <;> injection ht with ht
    · exact ⟨_, _, .event (.console (readReg 0 s)), .next, by rw [← ht]; simp [advance, emit]⟩
    · exact ⟨_, _, .event (.diag (.unhandledSyscall s.pc code)), .next, by rw [← ht]; simp [advance, report]⟩

/-- Every next state of exec is one effect and one commit. -/
theorem exec_next {i : Instr} (h : exec i s = .next t) :
    ∃ u a, Effect s u ∧ NextPc s a ∧ t = commitPc a u := by
  suffices hs : Summed s (exec i s) from hs t h
  cases i with
  | j index => intro t h; injection h with h; exact ⟨_, _, .nothing, .jump index, h.symm⟩
  | syscall code => exact summed_syscall code
  | stp => simp only [exec, execStp]; refine summed_withRegs ?_; exact summed_withAligned summed_storePair
  | rori => simp only [exec, execRori]; refine summed_withRegs ?_; exact summed_finishAlu _ _
  | slti => simp only [exec, execSlti]; refine summed_withRegs ?_; exact summed_finishAlu _ _
  | st => simp only [exec, execSt]; refine summed_withRegs ?_; exact summed_withAligned summed_store
  | bdep => simp only [exec, execBdep]; refine summed_withRegs ?_; exact summed_finishAlu _ _
  | cls => simp only [exec, execCls]; refine summed_withRegs ?_; exact summed_finishAlu _ _
  | add => simp only [exec, execAdd]; refine summed_withRegs ?_; exact summed_finishAlu _ _
  | bne => simp only [exec, execBne]; refine summed_withRegs ?_; exact summed_branch _ _
  | beq => simp only [exec, execBeq]; refine summed_withRegs ?_; exact summed_branch _ _
  | ld => simp only [exec, execLd]; refine summed_withRegs ?_; exact summed_withAligned summed_load
  | and => simp only [exec, execAnd]; refine summed_withRegs ?_; exact summed_finishAlu _ _
  | ssat => simp only [exec, execSsat]; refine summed_withRegs ?_; exact summed_finishAlu _ _

/-! ## Everything a step can do (R31) -/

/-- If step answers a next state, the core was not refused, and either it was halted and did nothing, or
it fetched and ran the instruction or halted on UNKNOWN. -/
theorem step_next (h : step s = .next t) :
    s.refusal = none ∧
    ((s.halted = true ∧ t = s) ∨
     (s.halted = false ∧ ∃ w s1, fetch s = .ok (w, s1) ∧
       ((∃ i, decodeWord w = .ok i ∧ exec i s1 = .next t) ∨
        (∃ u, decodeWord w = .error u ∧ t = takeUnknown u w s1)))) := by
  unfold step controlStep at h
  split at h
  · cases h
  · rename_i hr
    refine ⟨hr, ?_⟩
    split at h
    · rename_i hh
      injection h with h
      exact .inl ⟨hh, h.symm⟩
    · rename_i hh
      refine .inr ⟨by simpa using hh, ?_⟩
      split at h
      · cases h
      · rename_i w s1 hf
        refine ⟨w, s1, hf, ?_⟩
        split at h
        · rename_i i hd
          exact .inl ⟨i, hd, h⟩
        · rename_i u hd
          injection h with h
          exact .inr ⟨u, hd, h.symm⟩

/-- The same, from what fetch and decode answer: the way to run a step forward. -/
theorem step_of_fetch {w : Word} {s1 : State} {i : Instr} (hr : s.refusal = none) (hh : s.halted = false)
    (hf : fetch s = .ok (w, s1)) (hd : decodeWord w = .ok i) : step s = exec i s1 := by
  simp [step, controlStep, hr, hh, hf, hd]

/-- A word that decodes to UNKNOWN, run forward. -/
theorem step_of_unknown {w : Word} {s1 : State} {u : Unknown} (hr : s.refusal = none) (hh : s.halted = false)
    (hf : fetch s = .ok (w, s1)) (hd : decodeWord w = .error u) : step s = .next (takeUnknown u w s1) := by
  simp [step, controlStep, hr, hh, hf, hd]

/-- What UNKNOWN does: one halt with its diagnostic (R100). -/
theorem takeUnknown_eq (u : Unknown) (w : Word) (s : State) :
    ∃ r d, takeUnknown u w s = takeHalt r (some d) s ∧
      ((∃ op, u = .opcode op ∧ r = .unknownOpcode ∧ d = .unknownOpcode s.pc w op) ∨
       (∃ f, u = .funct f ∧ r = .unknownFunct ∧ d = .unknownFunct s.pc w f)) := by
  cases u with
  | opcode op => exact ⟨_, _, rfl, .inl ⟨op, rfl, rfl, rfl⟩⟩
  | funct f => exact ⟨_, _, rfl, .inr ⟨f, rfl, rfl, rfl⟩⟩

end Sys2Proof.Laws
end

