-- ==== Sys2Proof/Laws/Frames.lean ====
section
/-! SUPPORT. The shared operations in the terms of Sys2Proof/Safety.lean: what taking a halt, writing a
destination, storing bytes and fetching do, each said once. -/

namespace Sys2Proof.Laws

open Sys2Proof.Machine

variable {s t : State}

/-- Taking a halt is a halt and nothing else (R207). -/
theorem takeHalt_onlyHalts (r : HaltReason) (d : Option Diag) : OnlyHalts r d.toList s (takeHalt r d s) := by
  refine ⟨by simp, by simp, by simp, by simp, fun i _ => by simp, ⟨by simp, fun a => by simp⟩, by simp, by simp⟩

/-- The end of an ALU instruction writes its destination and nothing else (R175 to R181). -/
theorem advance_writeReg_onlyWrites (d : Nat) (v : Word) : OnlyWrites d s (advance (writeReg d v s)) := by
  refine ⟨fun i hi => ?_, ⟨by simp, fun a => by simp⟩, ⟨by simp, by simp, by simp, by simp⟩, by simp,
    fun h => by simp [h]⟩
  rw [readReg_advance, readReg_writeReg_ne _ _ _ _ (by simpa using hi)]

/-- The end of a store, from canonical memory (R64, R65). -/
theorem advance_storeBytes_onlyStores {a : Nat} {bs : List Byte} (hm : s.mem.wf) :
    OnlyStores a bs s (advance { s with mem := storeBytes s.mem a bs }) := by
  refine ⟨fun k h => ?_, fun k h => ?_, fun k h h' => ?_, by simp, fun i _ => ?_,
    ⟨by simp, by simp, by simp, by simp⟩, by simp, fun h => by simp [h]⟩
  · rw [advance_mem]; exact byteAt_storeBytes_inside _ _ _ _ hm h
  · rw [advance_mem]; exact byteAt_storeBytes_outside _ _ _ _ h
  · rw [advance_mem]; exact (byteAt_storeBytes_outside _ _ _ _ (.inl h')).trans (byteAt_beyond _ _ hm h)
  · rw [readReg_advance]; rfl

/-- A fetch answers the word at the pc and the same state, or 0 and the state with OOR_READ (R70). -/
theorem fetch_ok {s1 : State} {w : Word} (h : fetch s = .ok (w, s1)) :
    (s1 = s ∧ w = wordAt s.mem s.pc.toNat ∧ s.pc.toNat + 4 ≤ s.mem.size) ∨
    (w = 0#32 ∧ s1 = report (.oorRead s.pc) s ∧ s.mem.size < s.pc.toNat + 4) := by
  rcases (memRead_ok h).2 with ⟨a, b⟩ | ⟨a, b⟩ <;> injection b with b1 b2
  · exact .inl ⟨b2, b1, a⟩
  · exact .inr ⟨b1, b2, a⟩

/-- A word in memory as a number (R62). -/
theorem wordAt_toNat (m : Memory) (a : Nat) : (wordAt m a).toNat =
    (byteAt m a).toNat + (byteAt m (a + 1)).toNat * 2 ^ 8 + (byteAt m (a + 2)).toNat * 2 ^ 16 +
      (byteAt m (a + 3)).toNat * 2 ^ 24 := by
  simp only [wordAt, wordOfBytes, toNat_append_eq]; ring

/-! ## Every memory operation keeps the canonical form -/

theorem memRead_wf {addr : Word} {p : Word × State} (h : memRead addr s = .ok p) (hs : s.mem.wf) : p.2.mem.wf := by
  rcases (memRead_ok h).2 with ⟨-, rfl⟩ | ⟨-, rfl⟩ <;> exact hs

theorem memWrite_wf {addr v : Word} (h : memWrite addr v s = .ok t) (hs : s.mem.wf) : t.mem.wf := by
  obtain ⟨ha, rfl⟩ := memWrite_ok h
  exact storeBytes_wf _ _ _ hs (by rw [wordBytes_length]; exact ha)

theorem storePair_wf {addr v1 v2 : Word} (h : storePair addr v1 v2 s = .ok t) (hs : s.mem.wf) : t.mem.wf := by
  obtain ⟨ha, rfl⟩ := storePair_ok h
  exact storeBytes_wf _ _ _ hs (by simpa using ha)

theorem placeWord_wf (w : Word) (hs : s.mem.wf) : (placeWord w s).mem.wf := by
  refine storeBytes_wf _ _ _ hs ?_
  rw [wordBytes_length]
  unfold placeAddr
  split
  · decide
  · rename_i h
    exact Nat.le_of_not_lt fun hc => h ((pastTop_iff _).mpr hc)

end Sys2Proof.Laws
end

