-- ==== Sys2Proof/Laws/Host.lean ====
section
/-! SUPPORT. The host's operations: what each can answer, said once, and the fields that reset leaves. -/

namespace Sys2Proof.Laws

open Sys2Proof.Machine

variable {s t : State}

/-! ## reset() (R42, R230) -/

@[simp] theorem hostReset_regs : (hostReset s).regs = Vector.replicate 32 0#32 := rfl
@[simp] theorem hostReset_pc : (hostReset s).pc = 0#32 := rfl
@[simp] theorem hostReset_halted : (hostReset s).halted = false := rfl
@[simp] theorem hostReset_mem : (hostReset s).mem = State.reset.mem := rfl
@[simp] theorem hostReset_haltReason : (hostReset s).haltReason = none := rfl
@[simp] theorem hostReset_trace : (hostReset s).trace = s.trace := rfl
@[simp] theorem hostReset_params : (hostReset s).params = s.params := rfl
@[simp] theorem hostReset_refusal :
    (hostReset s).refusal = if s.params.resetClearsMark then none else s.refusal := rfl

/-! ## load and set_reg (R43, R44) -/

/-- If a load answers a state, there were bytes, and either it was refused and set the mark, or it stored
them. -/
theorem hostLoad_ok {base : Word} {bytes : List Byte} (h : hostLoad base bytes s = .ok t) :
    bytes ≠ [] ∧
    ((2 ^ 32 < base.toNat + bytes.length ∧ t = markRefused .loadPastTop s) ∨
     (base.toNat + bytes.length ≤ 2 ^ 32 ∧ t = { s with mem := storeBytes s.mem base.toNat bytes })) := by
  unfold hostLoad at h
  split at h
  · cases h
  · rename_i hn
    refine ⟨fun hc => hn (by simp [hc]), ?_⟩
    split at h <;> injection h with h
    · exact .inl ⟨by assumption, h.symm⟩
    · exact .inr ⟨by omega, h.symm⟩

/-- If set_reg answers a state, the index was in range and the register was written. -/
theorem hostSetReg_ok {i : Nat} {v : Word} (h : hostSetReg i v s = .ok t) : i < 32 ∧ t = writeReg i v s := by
  unfold hostSetReg at h
  split at h
  · rename_i rf e
    injection h with h
    refine ⟨?_, by simp [writeReg, e, h]⟩
    by_contra hc
    simp [regSet, hc] at e
  · cases h

/-- If a memory read-out answers a byte, the address exists and it is the byte there (R208). -/
theorem hostGetByte_some {a : Word} {b : Byte} (h : hostGetByte a s = some b) :
    a.toNat < s.mem.size ∧ b = byteAt s.mem a.toNat := by
  unfold hostGetByte at h
  split at h
  · exact ⟨by assumption, (Option.some.inj h).symm⟩
  · cases h

/-! ## The host's step (R29, R31, R35) -/

/-- The host's step is the step's next state, or sets the mark. -/
theorem hostStep_cases (s : State) :
    step s = .next (hostStep s) ∨ ∃ r, step s = .refused r ∧ hostStep s = markRefused r s := by
  unfold hostStep
  split
  · exact .inl (by assumption)
  · exact .inr ⟨_, by assumption, rfl⟩
  · rename_i f _; exact nomatch f

end Sys2Proof.Laws
end

