-- ==== Sys2Proof/Laws/PerInstr.lean ====
section
/-! SUPPORT. What holds of every instruction as syntax, one lemma per constructor: its encoding lies in its
own row of the opcode tables (spec/30_encoding.md R101, R102). -/

namespace Sys2Proof.Laws

open Sys2Proof.Machine

/-- The encoded word has the opcode of the instruction's row, and in the opcode-0 group its function field. -/
def EncodesToItsOpcode.Statement (i : Instr) : Prop :=
  fieldOp (encode i) = fieldOp (tableRow i).2 ∧
  (fieldOp (tableRow i).2 = 0#6 → fieldFunct (encode i) = fieldFunct (tableRow i).2)

theorem EncodesToItsOpcode.j (index : BitVec 26) :
    EncodesToItsOpcode.Statement (.j index) := by
  simp only [EncodesToItsOpcode.Statement, tableRow, encode, fieldOp_encodeJ]; exact ⟨by decide, fun h => absurd h (by decide)⟩

theorem EncodesToItsOpcode.syscall (code : BitVec 18) :
    EncodesToItsOpcode.Statement (.syscall code) := by
  simp only [EncodesToItsOpcode.Statement, tableRow, encode, fieldOp_encodeSys, fieldFunct_encodeSys]; decide

theorem EncodesToItsOpcode.stp (base rt1 rt2 : Nat) (off11 : BitVec 11) :
    EncodesToItsOpcode.Statement (.stp base rt1 rt2 off11) := by
  simp only [EncodesToItsOpcode.Statement, tableRow, encode, fieldOp_encodeP]; exact ⟨by decide, fun h => absurd h (by decide)⟩

theorem EncodesToItsOpcode.rori (rd rs : Nat) (imm5 : BitVec 5) :
    EncodesToItsOpcode.Statement (.rori rd rs imm5) := by
  simp only [EncodesToItsOpcode.Statement, tableRow, encode, fieldOp_encodeI5]; exact ⟨by decide, fun h => absurd h (by decide)⟩

theorem EncodesToItsOpcode.slti (rs rt : Nat) (imm16 : BitVec 16) :
    EncodesToItsOpcode.Statement (.slti rs rt imm16) := by
  simp only [EncodesToItsOpcode.Statement, tableRow, encode, fieldOp_encodeI16]; exact ⟨by decide, fun h => absurd h (by decide)⟩

theorem EncodesToItsOpcode.st (base rt : Nat) (imm16 : BitVec 16) :
    EncodesToItsOpcode.Statement (.st base rt imm16) := by
  simp only [EncodesToItsOpcode.Statement, tableRow, encode, fieldOp_encodeI16]; exact ⟨by decide, fun h => absurd h (by decide)⟩

theorem EncodesToItsOpcode.bdep (rd rs1 rs2 : Nat) :
    EncodesToItsOpcode.Statement (.bdep rd rs1 rs2) := by
  simp only [EncodesToItsOpcode.Statement, tableRow, encode, fieldOp_encodeR, fieldFunct_encodeR]; decide

theorem EncodesToItsOpcode.cls (rd rs : Nat) :
    EncodesToItsOpcode.Statement (.cls rd rs) := by
  simp only [EncodesToItsOpcode.Statement, tableRow, encode, fieldOp_encodeR, fieldFunct_encodeR]; decide

theorem EncodesToItsOpcode.add (rs rt rd : Nat) :
    EncodesToItsOpcode.Statement (.add rs rt rd) := by
  simp only [EncodesToItsOpcode.Statement, tableRow, encode, fieldOp_encodeR, fieldFunct_encodeR]; decide

theorem EncodesToItsOpcode.bne (rs rt : Nat) (imm16 : BitVec 16) :
    EncodesToItsOpcode.Statement (.bne rs rt imm16) := by
  simp only [EncodesToItsOpcode.Statement, tableRow, encode, fieldOp_encodeI16]; exact ⟨by decide, fun h => absurd h (by decide)⟩

theorem EncodesToItsOpcode.beq (rs rt : Nat) (imm16 : BitVec 16) :
    EncodesToItsOpcode.Statement (.beq rs rt imm16) := by
  simp only [EncodesToItsOpcode.Statement, tableRow, encode, fieldOp_encodeI16]; exact ⟨by decide, fun h => absurd h (by decide)⟩

theorem EncodesToItsOpcode.ld (base rt : Nat) (imm16 : BitVec 16) :
    EncodesToItsOpcode.Statement (.ld base rt imm16) := by
  simp only [EncodesToItsOpcode.Statement, tableRow, encode, fieldOp_encodeI16]; exact ⟨by decide, fun h => absurd h (by decide)⟩

theorem EncodesToItsOpcode.and (rs rt rd : Nat) :
    EncodesToItsOpcode.Statement (.and rs rt rd) := by
  simp only [EncodesToItsOpcode.Statement, tableRow, encode, fieldOp_encodeR, fieldFunct_encodeR]; decide

theorem EncodesToItsOpcode.ssat (rd rs : Nat) (imm5 : BitVec 5) :
    EncodesToItsOpcode.Statement (.ssat rd rs imm5) := by
  simp only [EncodesToItsOpcode.Statement, tableRow, encode, fieldOp_encodeI5]; exact ⟨by decide, fun h => absurd h (by decide)⟩

end Sys2Proof.Laws
end

