-- ==== Sys2Proof/Tests/Slice0.lean ====
section
/-! SUPPORT. The model's own tests. Expected values come from spec/: the encodings of 30_encoding.md and the
vectors of 95_test_vectors.md (named V<n>, S<n>, M<n>, H<n>, P<n> beside each test), never from the model. -/

namespace Sys2Proof.Tests

open Sys2Proof.Machine

/-! ## Helpers -/

/-- The reset state with words loaded from an address on, the pc at it, and some registers set (the
conventions of spec/95_test_vectors.md). -/
def boot (pc : Word) (words : List Word) (regs : List (Nat × Word)) : State :=
  let s := { State.reset with pc := pc, mem := storeBytes State.reset.mem pc.toNat (words.flatMap wordBytes) }
  regs.foldl (fun s r => writeReg r.1 r.2 s) s

/-- The outcome is a next state that satisfies a test. -/
def goesTo (o : Host.Outcome State Fault Refusal) (p : State → Bool) : Bool :=
  match o with
  | .next t => p t
  | .fault _ => false
  | .refused _ => false

/-- The outcome is this refusal. -/
def stops (o : Host.Outcome State Fault Refusal) (r : Refusal) : Bool :=
  match o with
  | .next _ => false
  | .fault _ => false
  | .refused e => e == r

/-- ADD x3, x1, x2 at address 0: a running, sound state. -/
def adder : State := boot 0#32 [0x0022182B#32] [(1, 10#32), (2, 20#32)]

theorem next_of_goesTo {o : Host.Outcome State Fault Refusal} {p : State → Bool} (h : goesTo o p = true) :
    ∃ t, o = .next t ∧ p t = true := by
  cases o with
  | next t => exact ⟨t, rfl, h⟩
  | fault f => cases f
  | refused r => cases h

theorem refused_of_stops {o : Host.Outcome State Fault Refusal} {r : Refusal} (h : stops o r = true) :
    o = .refused r := by
  cases o with
  | next t => cases h
  | fault f => cases f
  | refused e => rw [show e = r by simpa [stops] using h]

/-! ## Well-formedness: each register position of each instruction is checked (R22, R92) -/

theorem test_illformed_three : ¬ WellFormed (.add 32 0 0) ∧ ¬ WellFormed (.add 0 32 0) ∧ ¬ WellFormed (.add 0 0 32) ∧
    ¬ WellFormed (.and 32 0 0) ∧ ¬ WellFormed (.and 0 32 0) ∧ ¬ WellFormed (.and 0 0 32) ∧
    ¬ WellFormed (.bdep 32 0 0) ∧ ¬ WellFormed (.bdep 0 32 0) ∧ ¬ WellFormed (.bdep 0 0 32) ∧
    ¬ WellFormed (.stp 32 0 0 0#11) ∧ ¬ WellFormed (.stp 0 32 0 0#11) ∧ ¬ WellFormed (.stp 0 0 32 0#11) := by decide

theorem test_illformed_two : ¬ WellFormed (.rori 32 0 0#5) ∧ ¬ WellFormed (.rori 0 32 0#5) ∧
    ¬ WellFormed (.ssat 32 0 0#5) ∧ ¬ WellFormed (.ssat 0 32 0#5) ∧ ¬ WellFormed (.cls 32 0) ∧ ¬ WellFormed (.cls 0 32) ∧
    ¬ WellFormed (.slti 32 0 0#16) ∧ ¬ WellFormed (.slti 0 32 0#16) ∧ ¬ WellFormed (.st 32 0 0#16) ∧
    ¬ WellFormed (.st 0 32 0#16) ∧ ¬ WellFormed (.ld 32 0 0#16) ∧ ¬ WellFormed (.ld 0 32 0#16) ∧
    ¬ WellFormed (.bne 32 0 0#16) ∧ ¬ WellFormed (.bne 0 32 0#16) ∧ ¬ WellFormed (.beq 32 0 0#16) ∧
    ¬ WellFormed (.beq 0 32 0#16) := by decide

theorem test_wellformed : WellFormed (.stp 31 31 31 0x7FF#11) ∧ WellFormed (.j 0x3FFFFFF#26) := by decide

/-! ## Decoding: one word per constructor, its fields written out from R92, R93, R101 and R102 -/

/-- op, index. -/
theorem test_decode_j : decodeWord 0b100111_00000000000000000000010000#32 = .ok (.j 0x10#26) := by decide
/-- op, unused 25..24 set, code, funct. -/
theorem test_decode_syscall : decodeWord 0b000000_11_111111111111111110_111110#32 = .ok (.syscall 0x3FFFE#18) := by decide
/-- op, base, rt1, rt2, off11. -/
theorem test_decode_stp : decodeWord 0b001000_00001_00010_00011_00000001000#32 = .ok (.stp 1 2 3 8#11) := by decide
/-- op, rd, rs, imm5, unused set. -/
theorem test_decode_rori : decodeWord 0b111011_00010_00001_00100_11111111111#32 = .ok (.rori 2 1 4#5) := by decide
/-- op, rs, rt, imm16. -/
theorem test_decode_slti : decodeWord 0b010110_00010_00001_1000000000000000#32 = .ok (.slti 2 1 0x8000#16) := by decide
/-- op, base, rt, imm16. -/
theorem test_decode_st : decodeWord 0b000011_00001_00010_0000000000001000#32 = .ok (.st 1 2 8#16) := by decide
/-- op, rd, rs1, rs2, unused set, funct. -/
theorem test_decode_bdep : decodeWord 0b000000_00011_00001_00010_11111_111010#32 = .ok (.bdep 3 1 2) := by decide
/-- op, rd, rs, unused set, unused, funct. -/
theorem test_decode_cls : decodeWord 0b000000_00100_00001_11111_00000_111001#32 = .ok (.cls 4 1) := by decide
/-- op, rs, rt, rd, unused, funct. -/
theorem test_decode_add : decodeWord 0b000000_00001_00010_00011_00000_101011#32 = .ok (.add 1 2 3) := by decide
/-- op, rs, rt, imm16. -/
theorem test_decode_bne : decodeWord 0b100100_00001_00010_1111111111111110#32 = .ok (.bne 1 2 0xFFFE#16) := by decide
/-- op, rs, rt, imm16. -/
theorem test_decode_beq : decodeWord 0b000010_00001_00001_0000000000000100#32 = .ok (.beq 1 1 4#16) := by decide
/-- op, base, rt, imm16. -/
theorem test_decode_ld : decodeWord 0b011010_00000_00101_0000000000000100#32 = .ok (.ld 0 5 4#16) := by decide
/-- op, rs, rt, rd, unused, funct. -/
theorem test_decode_and : decodeWord 0b000000_00001_00010_00011_00000_101101#32 = .ok (.and 1 2 3) := by decide
/-- op, rd, rs, imm5, unused. -/
theorem test_decode_ssat : decodeWord 0b001111_00010_00001_01000_00000000000#32 = .ok (.ssat 2 1 8#5) := by decide

/-- The first and last unlisted values beside listed ones (R103, R104). -/
theorem test_decode_unknown : decodeWord 0x04000000#32 = .error (.opcode 0x01#6) ∧
    decodeWord 0xFC00002B#32 = .error (.opcode 0x3F#6) ∧ decodeWord 0x0000002A#32 = .error (.funct 0x2A#6) ∧
    decodeWord 0x0000003F#32 = .error (.funct 0x3F#6) := by decide

/-- R62's example: 0x0022182B is stored as 2B 18 22 00. -/
theorem test_decode_bytes : decodeBytes [0x2B#8, 0x18#8, 0x22#8, 0x00#8, 0x3E#8] = .ok (.add 1 2 3, [0x3E#8]) := by
  decide

theorem test_decode_short : decodeBytes [0x2B#8, 0x18#8, 0x22#8] = .error .tooShort := by decide

theorem test_table_word : decodeTableWord 32 0x0022182B = some (.add 1 2 3) ∧ decodeTableWord 32 0 = none := by decide

/-! ## One step of each instruction -/

/-- V46. -/
theorem test_j_region : goesTo (step (boot 0x80000100#32 [0x9C000010#32] [])) (fun t =>
    t.pc == 0x80000040#32 && t.trace == []) = true := by decide

/-- V48. -/
theorem test_j_last_word : goesTo (step (boot 0x0FFFFFFC#32 [0x9C000000#32] [])) (fun t =>
    t.pc == 0#32) = true := by decide

/-- V61. -/
theorem test_syscall_emit : goesTo (step (boot 0x20#32 [0x0000007E#32] [(0, 0xFFFFFFFF#32)])) (fun t =>
    t.trace == [.console 0xFFFFFFFF#32] && t.pc == 0x24#32 && t.halted == false) = true := by decide

/-- V64, bits 25..24 set. -/
theorem test_syscall_exit : goesTo (step (boot 0x20#32 [0x0300003E#32] [])) (fun t =>
    t.trace == [] && t.pc == 0x24#32 && t.haltReason == some .syscallExit) = true := by decide

/-- V78. -/
theorem test_stp_grows : goesTo (step (boot 0#32 [0x20221808#32] [(1, 0x100#32), (2, 0x11223344#32), (3, 0x55667788#32)])) (fun t =>
    t.mem.size == 0x110 && byteAt t.mem 0x108 == 0x44#8 && byteAt t.mem 0x109 == 0x33#8 && byteAt t.mem 0x10a == 0x22#8 && byteAt t.mem 0x10b == 0x11#8 && byteAt t.mem 0x10c == 0x88#8 && byteAt t.mem 0x10d == 0x77#8 && byteAt t.mem 0x10e == 0x66#8 && byteAt t.mem 0x10f == 0x55#8) = true := by decide

/-- V79. -/
theorem test_stp_misaligned : goesTo (step (boot 0x1000#32 [0x20221806#32] [(1, 0x100#32)])) (fun t =>
    t.trace == [.diag (.misaligned 0x1000#32 6#32)] && t.haltReason == some .misaligned && t.mem.size == 0x1004) = true := by decide

/-- V1. -/
theorem test_rori_4 : goesTo (step (boot 0#32 [0xEC412000#32] [(1, 0x12345678#32)])) (fun t =>
    readReg 2 t == 0x81234567#32 && t.pc == 4#32) = true := by decide

/-- V4. -/
theorem test_rori_31 : goesTo (step (boot 0#32 [0xEC41F800#32] [(1, 0x12345678#32)])) (fun t =>
    readReg 2 t == 0x2468ACF0#32) = true := by decide

/-- V8. -/
theorem test_slti_less : goesTo (step (boot 0#32 [0x58418000#32] [(2, 0x80000000#32)])) (fun t =>
    readReg 1 t == 1#32) = true := by decide

/-- V9. -/
theorem test_slti_equal : goesTo (step (boot 0#32 [0x58418000#32] [(1, 7#32), (2, 0xFFFF8000#32)])) (fun t =>
    readReg 1 t == 0#32 && readReg 2 t == 0xFFFF8000#32) = true := by decide

/-- V67. -/
theorem test_st_grows : goesTo (step (boot 0x1000#32 [0x0C022000#32] [(2, 0x01020304#32)])) (fun t =>
    t.mem.size == 0x2004 && byteAt t.mem 0x1FFF == 0#8 && byteAt t.mem 0x2000 == 0x04#8 && byteAt t.mem 0x2001 == 0x03#8 && byteAt t.mem 0x2002 == 0x02#8 && byteAt t.mem 0x2003 == 0x01#8) = true := by decide

/-- V69. -/
theorem test_st_misaligned : goesTo (step (boot 0x1000#32 [0x0C220004#32] [(1, 0x102#32)])) (fun t =>
    t.trace == [.diag (.misaligned 0x1000#32 0x106#32)] && t.halted && t.pc == 0x1004#32) = true := by decide

/-- V14. -/
theorem test_bdep_mask : goesTo (step (boot 0#32 [0x0061103A#32] [(1, 0xABCD#32), (2, 0xF0F0F0F0#32)])) (fun t =>
    readReg 3 t == 0xA0B0C0D0#32) = true := by decide

/-- V18. -/
theorem test_bdep_self : goesTo (step (boot 0#32 [0x0021083A#32] [(1, 0x0F#32)])) (fun t =>
    readReg 1 t == 0x0F#32) = true := by decide

/-- V26. -/
theorem test_cls_15 : goesTo (step (boot 0#32 [0x00810039#32] [(1, 0x8000#32)])) (fun t =>
    readReg 4 t == 15#32) = true := by decide

/-- V20. -/
theorem test_cls_ones : goesTo (step (boot 0#32 [0x00810039#32] [(1, 0xFFFFFFFF#32)])) (fun t =>
    readReg 4 t == 31#32) = true := by decide

/-- V29. -/
theorem test_add_wraps : goesTo (step (boot 0#32 [0x0022182B#32] [(1, 0xFFFFFFFF#32), (2, 1#32), (3, 7#32)])) (fun t =>
    readReg 3 t == 0#32 && readReg 1 t == 0xFFFFFFFF#32) = true := by decide

/-- V32. -/
theorem test_add_self : goesTo (step (boot 0#32 [0x0021082B#32] [(1, 0x40000001#32)])) (fun t =>
    readReg 1 t == 0x80000002#32) = true := by decide

/-- V55. -/
theorem test_bne_taken : goesTo (step (boot 0x10#32 [0x9022FFFE#32] [(1, 5#32)])) (fun t =>
    t.pc == 8#32) = true := by decide

/-- V56. -/
theorem test_bne_not_taken : goesTo (step (boot 0x10#32 [0x9022FFFE#32] [(1, 5#32), (2, 5#32)])) (fun t =>
    t.pc == 0x14#32) = true := by decide

/-- V53. -/
theorem test_beq_wraps : goesTo (step (boot 0x10000#32 [0x08218000#32] [])) (fun t =>
    t.pc == 0xFFFF0000#32) = true := by decide

/-- V51. -/
theorem test_beq_not_taken : goesTo (step (boot 0#32 [0x08220004#32] [(1, 1#32), (2, 2#32)])) (fun t =>
    t.pc == 4#32) = true := by decide

/-- V77. -/
theorem test_ld_own_word : goesTo (step (boot 0x1000#32 [0x68210000#32] [(1, 0x1000#32)])) (fun t =>
    readReg 1 t == 0x68210000#32 && t.trace == []) = true := by decide

/-- V74. -/
theorem test_ld_outside : goesTo (step (boot 0x1000#32 [0x68052000#32] [(5, 99#32)])) (fun t =>
    readReg 5 t == 0#32 && t.trace == [.diag (.oorRead 0x2000#32)] && t.halted == false) = true := by decide

/-- V33. -/
theorem test_and_bits : goesTo (step (boot 0#32 [0x0022182D#32] [(1, 0xFF00FF00#32), (2, 0x0FF00FF0#32)])) (fun t =>
    readReg 3 t == 0x0F000F00#32) = true := by decide

/-- V35. -/
theorem test_and_self : goesTo (step (boot 0#32 [0x0021082D#32] [(1, 0x89ABCDEF#32)])) (fun t =>
    readReg 1 t == 0x89ABCDEF#32) = true := by decide

/-- V36. -/
theorem test_ssat_low : goesTo (step (boot 0#32 [0x3C414000#32] [(1, 0xFFFFFF38#32)])) (fun t =>
    readReg 2 t == 0xFFFFFF80#32) = true := by decide

/-- V44. -/
theorem test_ssat_31 : goesTo (step (boot 0#32 [0x3C41F800#32] [(1, 0x7FFFFFFF#32)])) (fun t =>
    readReg 2 t == 0x3FFFFFFF#32) = true := by decide

/-- V83: refused, nothing written. -/
theorem test_stp_top : stops (step (boot 0x1000#32 [0x20221800#32] [(1, 0xFFFFFFFC#32)])) .topOfMemory = true := by decide

/-- An instruction placed by withFetchWord is the next one to run. -/
theorem test_fetch_word : goesTo (step (State.reset.withFetchWord 32 0x0000007E)) (fun t =>
    t.trace == [.console 0#32] && t.pc == 4#32) = true := by decide

/-! ## The parameters (V65, V70, V72, V81) -/

/-- A parameter choice on top of a state. -/
def under (p : Params) (s : State) : State := { s with params := p }

theorem test_halt_keeps_pc : goesTo (step (under { Params.default with haltCommitsPc := false }
    (boot 0x20#32 [0x0000003E#32] []))) (fun t => t.halted && t.pc == 0x20#32) = true := by decide

theorem test_ldst_offset_check : goesTo (step (under { Params.default with alignCheckLdst := .offset }
    (boot 0x1000#32 [0x0C220004#32] [(1, 0x102#32), (2, 5#32)]))) (fun t =>
    t.halted == false && byteAt t.mem 0x106 == 5#8) = true := by decide

theorem test_offset_sext : goesTo (step (under { Params.default with offsetExt := .sext }
    (boot 0x1000#32 [0x0C22FFFC#32] [(1, 0x10000#32), (2, 7#32)]))) (fun t =>
    t.mem.size == 0x10000 && byteAt t.mem 0xFFFC == 7#8) = true := by decide

theorem test_stp_address_check : goesTo (step (under { Params.default with alignCheckStp := .address }
    (boot 0x1000#32 [0x20221808#32] [(1, 0x101#32)]))) (fun t =>
    t.trace == [.diag (.misaligned 0x1000#32 0x109#32)]) = true := by decide

/-! ## Memory and the host's operations -/

/-- R67's example of overlapping words. -/
theorem test_overlap :
    let m := storeBytes (storeBytes State.reset.mem 0 (wordBytes 0x44332211#32)) 2 (wordBytes 0x88776655#32)
    m.size = 6 ∧ wordAt m 1 = 0x77665522#32 := by decide

/-- R141: 0 is written "0", and the largest word is unsigned. -/
theorem test_console : consoleLine 0#32 = ['0', '\n'] ∧
    consoleLine 0xFFFFFFFF#32 = ['4', '2', '9', '4', '9', '6', '7', '2', '9', '5', '\n'] := by decide

/-- The mark after reset() under each reading (R230's table, R29; log 7). -/
theorem test_reset_mark : (hostReset (markRefused .topOfMemory adder)).refusal = none ∧
    (hostReset (markRefused .topOfMemory (under { Params.default with resetClearsMark := false } adder))).refusal =
      some .topOfMemory := by decide

/-- Program P1, by its two steps: x3 = 30, halted, pc = 8, no diagnostic (S8). -/
theorem test_run : (let t := hostRun 5 (boot 0#32 [0x0022182B#32, 0x0000003E#32] [(1, 10#32), (2, 20#32)])
    readReg 3 t == 30#32 && t.halted && t.pc == 8#32 && t.trace == []) = true := by decide

/-! ## Witnesses: for each statement with hypotheses, states and operands that meet them together -/

/-- A memory of a given size with nothing but zero bytes. -/
def blank (size : Nat) (regs : List (Nat × Word)) : State :=
  { boot 0#32 [] regs with mem := { size := size, cells := [] } }

theorem witness_DecodeOfEncodeIsTheInstruction : WellFormed (.stp 31 0 31 0x7FF#11) ∧ WellFormed (.add 0 31 0) := by decide

theorem witness_EncodeOfDecodeIsTheUsedBits : decodeWord 0x0022182B#32 = .ok (.add 1 2 3) := by decide

theorem witness_UnusedBitsAreIgnored : decodeWord 0x0022182B#32 = .ok (.add 1 2 3) ∧
    0x00221FEB#32 &&& usedBits (.add 1 2 3) = 0x0022182B#32 &&& usedBits (.add 1 2 3) := by decide

theorem witness_DecoderFollowsTheTwoTables_row :
    0x0022182B#32 &&& (tableRow (.add 1 2 3)).1 = (tableRow (.add 1 2 3)).2 := by decide

theorem witness_DecoderFollowsTheTwoTables_opcode : let s := boot 0#32 [0x04000000#32] []
    Running s ∧ fetch s = .ok (0x04000000#32, s) ∧
    (0x04000000#32 : Word).toNat / 2 ^ 26 ∉ [0x00, 0x02, 0x03, 0x08, 0x0F, 0x16, 0x1A, 0x24, 0x27, 0x3B] := by decide

theorem witness_DecoderFollowsTheTwoTables_funct : let s := boot 0#32 [0x0000002A#32] []
    Running s ∧ fetch s = .ok (0x0000002A#32, s) ∧ (0x0000002A#32 : Word).toNat / 2 ^ 26 = 0 ∧
    (0x0000002A#32 : Word).toNat % 2 ^ 6 ∉ [0x2B, 0x2D, 0x39, 0x3A, 0x3E] := by decide

theorem witness_StepRunsTheDecodedInstruction : let s := adder
    Running s ∧ s.pc.toNat + 4 ≤ 2 ^ 32 ∧ s.pc.toNat + 4 ≤ s.mem.size ∧
    decodeBytes ([byteAt s.mem s.pc.toNat, byteAt s.mem (s.pc.toNat + 1), byteAt s.mem (s.pc.toNat + 2),
      byteAt s.mem (s.pc.toNat + 3)] ++ [7#8]) = .ok (.add 1 2 3, [7#8]) := by decide

theorem witness_FetchPastTheEndHalts : let s := { State.reset with pc := 0xFFFFFFFC#32 }
    Running s ∧ s.pc.toNat + 4 ≤ 2 ^ 32 ∧ s.mem.size < s.pc.toNat + 4 := by decide

theorem witness_HaltedAndRefusedCoresDoNothing :
    (let s := setHalted .misaligned adder; s.refusal = none ∧ s.halted = true) ∧
    (markRefused .topOfMemory adder).refusal = some .topOfMemory := by decide

theorem witness_StepKeepsSoundness : Sound adder ∧ ∃ t, step adder = .next t ∧ (readReg 3 t == 30#32) = true :=
  ⟨⟨by decide, by decide, by decide⟩, next_of_goesTo (by decide)⟩

theorem witness_StepKeepsThePcAligned :
    adder.pc.toNat % 4 = 0 ∧ ∃ t, step adder = .next t ∧ (t.pc == 4#32) = true :=
  ⟨by decide, next_of_goesTo (by decide)⟩

theorem witness_OneStepMakesOneOfTheListedEvents :
    Running adder ∧ ∃ t, step adder = .next t ∧ (t.trace == []) = true :=
  ⟨by decide, next_of_goesTo (by decide)⟩

theorem witness_HaltIsPrecise : Running (boot 0#32 [0x0000003E#32] []) ∧
    ∃ t, step (boot 0#32 [0x0000003E#32] []) = .next t ∧ t.halted = true :=
  ⟨by decide, next_of_goesTo (by decide)⟩

theorem witness_StepKeepsTheParameters : ∃ t, step adder = .next t ∧ (readReg 3 t == 30#32) = true :=
  next_of_goesTo (by decide)

theorem witness_InstructionsWriteOnlyTheListedRegisters :
    ∃ t, exec (.add 1 2 3) adder = .next t ∧ (readReg 3 t == 30#32) = true := next_of_goesTo (by decide)

theorem witness_InstructionsReadOnlyTheListedRegisters : WellFormed (.add 1 2 3) ∧ adder.halted = false ∧
    3 ∉ readsRegs (.add 1 2 3) ∧ 3 ∈ writesRegs (.add 1 2 3) ∧
    ∃ t, exec (.add 1 2 3) adder = .next t ∧ (t.halted == false) = true :=
  ⟨by decide, by decide, by decide, by decide, next_of_goesTo (by decide)⟩

theorem witness_InstructionsReadOnlyTheListedRegisters_refused : let s := blank 0 [(1, 0xFFFFFFFC#32)]
    WellFormed (.stp 1 2 3 0#11) ∧ s.halted = false ∧ 4 ∉ readsRegs (.stp 1 2 3 0#11) ∧
    exec (.stp 1 2 3 0#11) s = .refused .topOfMemory :=
  ⟨by decide, by decide, by decide, refused_of_stops (by decide)⟩

theorem witness_BadRegisterIndexHalts : ¬ WellFormed (.add 0 32 0) := by decide

theorem witness_StepRefusesOnlyPastTheTop_fetch : let s := { State.reset with pc := 0xFFFFFFFD#32 }
    Running s ∧ step s = .refused .topOfMemory := ⟨by decide, refused_of_stops (by decide)⟩

theorem witness_StepRefusesOnlyPastTheTop_stp : let s := boot 0x1000#32 [0x20221800#32] [(1, 0xFFFFFFFC#32)]
    Running s ∧ step s = .refused .topOfMemory := ⟨by decide, refused_of_stops (by decide)⟩

theorem witness_JumpGoesToItsRegionAndIndex : (0x9C000010#32 : Word) &&& 0xFC000000#32 = 0x9C000000#32 := by decide

theorem witness_BneBranchesWhenNotEqual : (0x9022FFFE#32 : Word) &&& 0xFC000000#32 = 0x90000000#32 ∧ 0 < 32 ∧ 31 < 32 := by decide

theorem witness_BeqBranchesWhenEqual : (0x08210004#32 : Word) &&& 0xFC000000#32 = 0x08000000#32 ∧ 0 < 32 ∧ 31 < 32 := by decide

theorem witness_SyscallHaltsEmitsOrReports : (0x0300003E#32 : Word) &&& 0xFC00003F#32 = 0x0000003E#32 ∧ 2 ≤ (2#18 : BitVec 18).toNat ∧ 2 ≤ (0x3FFFF#18 : BitVec 18).toNat := by decide

theorem witness_StpStoresBothWords : (0x20221808#32 : Word) &&& 0xFC000000#32 = 0x20000000#32 ∧ 0 < 32 ∧ 31 < 32 := by decide

theorem witness_StStoresTheWordAtItsAddress : (0x0C220008#32 : Word) &&& 0xFC000000#32 = 0x0C000000#32 ∧ 0 < 32 ∧ 31 < 32 := by decide

theorem witness_LdLoadsTheWordAtItsAddress : (0x68050004#32 : Word) &&& 0xFC000000#32 = 0x68000000#32 ∧ 0 < 32 ∧ 31 < 32 := by decide

theorem witness_RoriRotatesRight : (0xEC412000#32 : Word) &&& 0xFC000000#32 = 0xEC000000#32 ∧ 0 < 32 ∧ 31 < 32 := by decide

theorem witness_SltiComparesSigned : (0x58010001#32 : Word) &&& 0xFC000000#32 = 0x58000000#32 ∧ 0 < 32 ∧ 31 < 32 := by decide

theorem witness_BdepDepositsUnderItsMask : (0x0061103A#32 : Word) &&& 0xFC00003F#32 = 0x0000003A#32 ∧ 0 < 32 ∧ 31 < 32 := by decide

theorem witness_ClsCountsLeadingSignBits : (0x00810039#32 : Word) &&& 0xFC00003F#32 = 0x00000039#32 ∧ 0 < 32 ∧ 31 < 32 := by decide

theorem witness_AddWrapsModuloWordSize : (0x0022182B#32 : Word) &&& 0xFC00003F#32 = 0x0000002B#32 ∧ 0 < 32 ∧ 31 < 32 := by decide

theorem witness_AndIsBitwise : (0x0022182D#32 : Word) &&& 0xFC00003F#32 = 0x0000002D#32 ∧ 0 < 32 ∧ 31 < 32 := by decide

theorem witness_SsatSaturatesToItsWidth : (0x3C414000#32 : Word) &&& 0xFC000000#32 = 0x3C000000#32 ∧ 0 < 32 ∧ 31 < 32 := by decide

/-- Inside to the last byte, one byte outside, the first address past the top, and a misaligned one. -/
theorem witness_LdLoadsTheWordAtItsAddress_clauses :
    (let s := blank 8 []; (ldstChecked 0 4#16 s).toNat % 4 = 0 ∧ (ldstAddr 0 4#16 s).toNat + 4 ≤ 2 ^ 32 ∧
      (ldstAddr 0 4#16 s).toNat + 4 ≤ s.mem.size) ∧
    (let s := blank 7 []; (ldstChecked 0 4#16 s).toNat % 4 = 0 ∧ (ldstAddr 0 4#16 s).toNat + 4 ≤ 2 ^ 32 ∧
      s.mem.size < (ldstAddr 0 4#16 s).toNat + 4) ∧
    (let s := under { Params.default with alignCheckLdst := .offset } (blank 8 [(1, 0xFFFFFFFD#32)]);
      (ldstChecked 1 0#16 s).toNat % 4 = 0 ∧ 2 ^ 32 < (ldstAddr 1 0#16 s).toNat + 4) ∧
    (let s := blank 8 []; (ldstChecked 0 1#16 s).toNat % 4 ≠ 0) := by decide

/-- The last address of the space, the first past the top, and a misaligned one. -/
theorem witness_StStoresTheWordAtItsAddress_clauses :
    (let s := blank 8 [(1, 0xFFFFFFFC#32)]; s.mem.wf ∧ (ldstChecked 1 0#16 s).toNat % 4 = 0 ∧
      (ldstAddr 1 0#16 s).toNat + 4 ≤ 2 ^ 32) ∧
    (let s := under { Params.default with alignCheckLdst := .offset } (blank 8 [(1, 0xFFFFFFFD#32)]);
      (ldstChecked 1 0#16 s).toNat % 4 = 0 ∧ 2 ^ 32 < (ldstAddr 1 0#16 s).toNat + 4) ∧
    (let s := blank 8 []; (ldstChecked 0 1#16 s).toNat % 4 ≠ 0) := by decide

/-- The last pair of the space, the first past the top, and a misaligned one. -/
theorem witness_StpStoresBothWords_clauses :
    (let s := blank 8 [(1, 0xFFFFFFF8#32)]; s.mem.wf ∧ (stpChecked 1 0#11 s).toNat % 4 = 0 ∧
      (stpAddr 1 0#11 s).toNat + 8 ≤ 2 ^ 32) ∧
    (let s := blank 8 [(1, 0xFFFFFFF9#32)]; (stpChecked 1 0#11 s).toNat % 4 = 0 ∧ 2 ^ 32 < (stpAddr 1 0#11 s).toNat + 8) ∧
    (let s := blank 8 []; (stpChecked 0 6#11 s).toNat % 4 ≠ 0) := by decide

theorem witness_AddressAndCheckFollowTheParameters :
    (let s := adder; s.params.offsetExt = .zext ∧ s.params.alignCheckLdst = .address ∧ s.params.alignCheckStp = .offset) ∧
    (let s := under { Params.default with offsetExt := .sext, alignCheckLdst := .offset, alignCheckStp := .address } adder;
      s.params.offsetExt = .sext ∧ s.params.alignCheckLdst = .offset ∧ s.params.alignCheckStp = .address) := by decide

theorem witness_RotateRightMovesEveryBit : 0 ≤ 31 ∧ 31 ≤ 31 ∧ 0 < 32 ∧ 31 < 32 := by decide

theorem witness_DepositScattersTheLowBits : 0 < 32 ∧ 31 < 32 := by decide

/-- A count below 31 with a bit counted, and a full count. -/
theorem witness_LeadingSignCountIsTheLongestRun : 1 ≤ 15 ∧ 15 ≤ countLeadingSign 0x8000#32 ∧
    countLeadingSign 0x8000#32 < 31 ∧ 1 ≤ 31 ∧ 31 ≤ countLeadingSign 0#32 := by decide

/-- One below the range, one above it, and both its ends. -/
theorem witness_SaturateClampsToTheSignedRange : 8 ≤ 31 ∧ 1 ≤ 8 ∧ (0xFFFFFF7F#32 : Word).toInt < -2 ^ (8 - 1) ∧
    2 ^ (8 - 1) - 1 < (0x80#32 : Word).toInt ∧ -2 ^ (8 - 1) ≤ (0xFFFFFF80#32 : Word).toInt ∧
    (0x7F#32 : Word).toInt ≤ 2 ^ (8 - 1) - 1 := by decide

theorem witness_ExtensionsFollowTheSignBit : (0x8000#16 : BitVec 16).getLsbD 15 = true ∧
    (0x7FFF#16 : BitVec 16).getLsbD 15 = false ∧ 31 < 32 := by decide

theorem witness_ByteOrderIsLittleEndian : wordBytes 0x0022182B#32 = [0x2B#8, 0x18#8, 0x22#8, 0x00#8] := by decide

theorem witness_MemReadFollowsItsRule : 0xFFFFFFFC < (0xFFFFFFFD#32 : Word).toNat ∧
    ((0xFFFFFFFC#32 : Word).toNat ≤ 0xFFFFFFFC ∧ (blank 0xFFFFFFFF []).mem.size < (0xFFFFFFFC#32 : Word).toNat + 4) ∧
    ((0xFFFFFFFC#32 : Word).toNat ≤ 0xFFFFFFFC ∧ (0xFFFFFFFC#32 : Word).toNat + 4 ≤ (blank 0x100000000 []).mem.size) := by
  decide

theorem witness_MemWriteFollowsItsRule : 0xFFFFFFFC < (0xFFFFFFFD#32 : Word).toNat ∧
    (0xFFFFFFFC#32 : Word).toNat ≤ 0xFFFFFFFC ∧ (blank 4 []).mem.wf := by decide

theorem witness_NextFetchSeesTheStoredWord : (blank 4 []).mem.wf ∧
    ∃ t, memWrite 4#32 0x0000003E#32 (blank 4 []) = .ok t := ⟨by decide, _, rfl⟩

theorem witness_OnlyStoresChangeTheMemory : let s := boot 0#32 [0x0C220008#32] [(1, 0x100#32), (2, 5#32)]
    ∃ t, step s = .next t ∧ (t.mem != s.mem) = true := next_of_goesTo (by decide)

theorem witness_RegisterFileGetAfterSet : 31 < 32 ∧ 0 ≠ 31 ∧ ¬ 32 < 32 := by decide

theorem witness_HostRegisterAccessIsChecked : 31 < 32 ∧ ¬ 32 < 32 := by decide

/-- No bytes, the first image past the top, and an image that ends at the top. -/
theorem witness_HostLoadCopiesTheBytes : ([] : List Byte) = [] ∧
    (2 ^ 32 < (0xFFFFFFFF#32 : Word).toNat + [1#8, 2#8].length ∧ [1#8, 2#8] ≠ []) ∧
    ([1#8, 2#8] ≠ [] ∧ (0xFFFFFFFE#32 : Word).toNat + [1#8, 2#8].length ≤ 2 ^ 32 ∧ State.reset.mem.wf) := by decide

theorem witness_ResetClearsTheCore : adder.trace = [] ∧ adder.params = Params.default := by decide

theorem witness_OnlyResetLeavesTheHaltedState : let s := setHalted .misaligned adder
    s.halted = true ∧ (∃ t, hostSetReg 31 7#32 s = .ok t) ∧ ∃ t, hostLoad 0#32 [1#8] s = .ok t :=
  ⟨rfl, ⟨_, rfl⟩, _, rfl⟩

/-- A run that ended halted, one that ended refused, and a core that still runs. -/
theorem witness_RunUnderFuelAddsUp : (hostRun 2 (boot 0#32 [0x0000003E#32] [])).halted = true ∧
    (hostRun 1 (boot 0x1000#32 [0x20221800#32] [(1, 0xFFFFFFFC#32)])).refusal.isSome = true ∧ Running adder := by decide

theorem witness_RefusalMarkStopsTheCore :
    step (boot 0x1000#32 [0x20221800#32] [(1, 0xFFFFFFFC#32)]) = .refused .topOfMemory := refused_of_stops (by decide)

/-- The lowest base that leaves the first word below the image, and the highest. -/
theorem witness_BootBelowTheImageHalts :
    (4 ≤ (4#32 : Word).toNat ∧ (4#32 : Word).toNat + [7#8].length ≤ 2 ^ 32 ∧ ∃ s, hostLoad 4#32 [7#8] State.reset = .ok s) ∧
    (4 ≤ (0xFFFFFFFF#32 : Word).toNat ∧ (0xFFFFFFFF#32 : Word).toNat + [7#8].length ≤ 2 ^ 32 ∧
      ∃ s, hostLoad 0xFFFFFFFF#32 [7#8] State.reset = .ok s) :=
  ⟨⟨by decide, by decide, _, rfl⟩, by decide, by decide, _, rfl⟩

theorem witness_HostStepTakesTheStep : ∃ t, step adder = .next t ∧ (readReg 3 t == 30#32) = true :=
  next_of_goesTo (by decide)

theorem witness_ReadOutsFollowTheTrace : adder.trace = [] ∧ (hostSetPc 1#32 adder).trace = adder.trace := by decide

/-- The last byte that exists, the first that does not, and a load of one byte at the top. -/
theorem witness_HostReadsTheMemory : (3#32 : Word).toNat < adder.mem.size ∧ adder.mem.size ≤ (4#32 : Word).toNat ∧
    adder.mem.wf ∧ ∃ t, hostLoad 0xFFFFFFFF#32 [7#8] adder = .ok t := ⟨by decide, by decide, by decide, _, rfl⟩

/-- A refused core that follows R29, whose register and memory the host can still write. -/
theorem witness_RefusedCoreStaysRefused :
    let s := markRefused .topOfMemory (under { Params.default with resetClearsMark := false } adder)
    s.refusal.isSome = true ∧ s.params.resetClearsMark = false ∧ (∃ t, hostSetReg 31 7#32 s = .ok t) ∧
      ∃ t, hostLoad 0#32 [1#8] s = .ok t := ⟨rfl, rfl, ⟨_, rfl⟩, _, rfl⟩

theorem witness_DumpHoldsThePcAndRegisters : 0 < 32 ∧ 31 < 32 := by decide

end Sys2Proof.Tests
end

