-- ==== Sys2Proof/Proofs/RegisterFile.lean ====
section
/-! PROOF. The register file of R22: what get and set answer at a bad index, what get answers after a set
at the same index and at another, and the statement about the two. -/

namespace Sys2Proof.Proofs

open Sys2Proof.Machine

/-! ## get and set, one lemma per case (R22) -/

section
variable {rf : Vector Word 32} {i j : Nat} {v : Word}

@[simp] theorem regSet_of_lt (h : i < 32) : regSet rf i v = some (rf.set i v h) := dif_pos h

@[simp] theorem regSet_of_not_lt (h : ¬ i < 32) : regSet rf i v = none := dif_neg h

@[simp] theorem regGet_of_not_lt (h : ¬ i < 32) : regGet rf i = none :=
  Vector.getElem?_eq_none (Nat.le_of_not_lt h)

@[simp] theorem regGet_set_self (h : i < 32) : regGet (rf.set i v h) i = some v :=
  Vector.getElem?_set_self h

@[simp] theorem regGet_set_of_ne (h : i < 32) (hj : j ≠ i) : regGet (rf.set i v h) j = regGet rf j :=
  Vector.getElem?_set_ne h hj.symm

end

/-! ## The obligation -/

/-- Settles O44: an index below 32 answers with the file whose one entry is replaced, and any other index
is rejected by both operations. -/
theorem registerFileGetAfterSet : Obligations.RegisterFileGetAfterSet := by
  intro rf i v
  constructor
  · intro hi
    exact ⟨rf.set i v hi, regSet_of_lt hi, regGet_set_self hi, fun _ hj => regGet_set_of_ne hi hj⟩
  · intro hi
    exact ⟨regSet_of_not_lt hi, regGet_of_not_lt hi⟩

end Sys2Proof.Proofs
end

