-- ==== Sys2Proof/Proofs/ControlTransfer.lean ====
section
/-! PROOF. Control transfer (spec/41_control.md): where J, BNE and BEQ send the pc and that they change
nothing else, which words are theirs, and that every step keeps a 4-aligned pc 4-aligned (R120 to R125). -/

namespace Sys2Proof.Proofs

open Sys2Proof.Machine Sys2Proof.Laws

/-! ## Which words are a control transfer (R101) -/

section
variable {w : Word}

/-- The opcode is what the opcode mask of the tables keeps. -/
theorem fieldOp_and_opcodeMask (w : Word) : fieldOp (w &&& 0xFC000000#32) = fieldOp w := by
  simp only [fieldOp, BitVec.extractLsb'_and]
  rw [show (0xFC000000#32).extractLsb' 26 6 = BitVec.allOnes 6 by decide, BitVec.and_allOnes]

/-- A word that matches a row under the opcode mask has the opcode of that row. -/
theorem fieldOp_of_row {row : Word} (h : w &&& 0xFC000000#32 = row) : fieldOp w = fieldOp row := by
  rw [← h, fieldOp_and_opcodeMask]

theorem fieldIndex_eq_ofNat (w : Word) : fieldIndex w = BitVec.ofNat 26 w.toNat := by
  apply BitVec.eq_of_toNat_eq
  simp [fieldIndex_toNat]

theorem fieldImm16_eq_ofNat (w : Word) : fieldImm16 w = BitVec.ofNat 16 w.toNat := by
  apply BitVec.eq_of_toNat_eq
  simp [fieldImm16_toNat]

theorem decodeWord_of_op_j (h : fieldOp w = 0x27#6) : decodeWord w = .ok (.j (fieldIndex w)) := by
  simp [decodeWord, decodePrimary, h]

theorem decodeWord_of_op_bne (h : fieldOp w = 0x24#6) :
    decodeWord w = .ok (.bne (fieldA w) (fieldB w) (fieldImm16 w)) := by
  simp [decodeWord, decodePrimary, h]

theorem decodeWord_of_op_beq (h : fieldOp w = 0x02#6) :
    decodeWord w = .ok (.beq (fieldA w) (fieldB w) (fieldImm16 w)) := by
  simp [decodeWord, decodePrimary, h]

end

/-! ## Targets as numbers (R120 to R122) -/

/-- The mask keeps the upper four bits: a shift right and back by 28, so a quotient and a product. -/
theorem and_regionMask_toNat (pc0 : Word) :
    (pc0 &&& 0xF0000000#32).toNat = pc0.toNat / 2 ^ 28 * 2 ^ 28 := by
  have hmask : (0xF0000000#32 : Word) = BitVec.allOnes 32 <<< 28 := by decide
  have hlt := pc0.isLt
  rw [hmask, ← BitVec.shiftLeft_ushiftRight]
  simp only [BitVec.toNat_shiftLeft, BitVec.toNat_ushiftRight, Nat.shiftLeft_eq, Nat.shiftRight_eq_div_pow]
  omega

/-- The 26 bits of the index lose nothing to the shift. -/
theorem index_shiftLeft_toNat (index : BitVec 26) :
    ((index.setWidth 32 : Word) <<< 2).toNat = index.toNat * 4 := by
  have hlt := index.isLt
  rw [BitVec.toNat_shiftLeft, BitVec.toNat_setWidth, Nat.shiftLeft_eq]
  omega

theorem jumpTarget_toNat (pc0 : Word) (index : BitVec 26) :
    (jumpTarget pc0 index).toNat = pc0.toNat / 2 ^ 28 * 2 ^ 28 + index.toNat * 4 := by
  have hlow : index.toNat * 4 < 2 ^ 28 := by have := index.isLt; omega
  rw [jumpTarget, BitVec.toNat_or, and_regionMask_toNat, index_shiftLeft_toNat, Nat.mul_comm,
    Nat.two_pow_add_eq_or_of_lt hlow]

/-- Shifting the extended offset left by two is multiplying the signed offset by 4, modulo 2^32. -/
theorem sext16_shiftLeft (imm16 : BitVec 16) : sext16 imm16 <<< 2 = BitVec.ofInt 32 (imm16.toInt * 4) := by
  rw [sext16, BitVec.shiftLeft_eq_mul_twoPow, BitVec.signExtend, BitVec.ofInt_mul]
  rfl

theorem branchTarget_eq (pc0 : Word) (imm16 : BitVec 16) :
    branchTarget pc0 imm16 = pc0 + BitVec.ofInt 32 (imm16.toInt * 4) := by
  rw [branchTarget, sext16_shiftLeft]

/-! ## What J, BNE and BEQ do -/

theorem commitPc_onlyMovesPc (a : Word) (s : State) : OnlyMovesPc a s (commitPc a s) :=
  ⟨fun _ _ => by simp, ⟨by simp, fun _ => by simp⟩, ⟨by simp, by simp, by simp, by simp⟩, by simp,
    fun h => by simp [h]⟩

/-- A branch, taken or not, is one commit. -/
theorem branch_eq_commitPc (taken : Bool) (imm16 : BitVec 16) (s : State) :
    branch taken imm16 s = commitPc (if taken then branchTarget s.pc imm16 else s.pc + 4#32) s := by
  cases taken <;> rfl

theorem branch_onlyMovesPc (taken : Bool) (imm16 : BitVec 16) (s : State) :
    OnlyMovesPc (if taken then s.pc + BitVec.ofInt 32 (imm16.toInt * 4) else s.pc + 4#32) s
      (branch taken imm16 s) := by
  rw [← branchTarget_eq, branch_eq_commitPc]
  exact commitPc_onlyMovesPc _ s

theorem exec_j (index : BitVec 26) (s : State) :
    exec (.j index) s = .next (commitPc (jumpTarget s.pc index) s) := rfl

theorem exec_bne {rs rt : Nat} (imm16 : BitVec 16) (s : State) (hs : rs < 32) (ht : rt < 32) :
    exec (.bne rs rt imm16) s = .next (branch (readReg rs s != readReg rt s) imm16 s) := by
  rw [exec, execBne]
  exact withRegs_ok (by simp [hs, ht])

theorem exec_beq {rs rt : Nat} (imm16 : BitVec 16) (s : State) (hs : rs < 32) (ht : rt < 32) :
    exec (.beq rs rt imm16) s = .next (branch (readReg rs s == readReg rt s) imm16 s) := by
  rw [exec, execBeq]
  exact withRegs_ok (by simp [hs, ht])

/-! ## The pc stays 4-aligned (R125) -/

section
variable {s t u : State} {a : Word}

theorem add_four_aligned (h : a.toNat % 4 = 0) : (a + 4#32).toNat % 4 = 0 := by
  rw [BitVec.toNat_add, BitVec.toNat_ofNat]
  omega

theorem jumpTarget_aligned (pc0 : Word) (index : BitVec 26) : (jumpTarget pc0 index).toNat % 4 = 0 := by
  rw [jumpTarget_toNat]
  omega

theorem branchTarget_aligned (imm16 : BitVec 16) (h : a.toNat % 4 = 0) :
    (branchTarget a imm16).toNat % 4 = 0 := by
  rw [branchTarget, BitVec.toNat_add, BitVec.toNat_shiftLeft, Nat.shiftLeft_eq]
  omega

/-- From an aligned pc every place an instruction can go to is aligned. -/
theorem nextPc_aligned (h : NextPc s a) (hpc : s.pc.toNat % 4 = 0) : a.toNat % 4 = 0 := by
  cases h with
  | next => exact add_four_aligned hpc
  | jump index => exact jumpTarget_aligned s.pc index
  | branch imm16 => exact branchTarget_aligned imm16 hpc

/-- No effect of an instruction moves the pc: only the commit after it does. -/
theorem effect_pc (h : Effect s u) : u.pc = s.pc := by
  cases h <;> simp

theorem commitPc_aligned (ha : a.toNat % 4 = 0) (hpc : u.pc.toNat % 4 = 0) :
    (commitPc a u).pc.toNat % 4 = 0 := by
  rw [commitPc_pc]
  split
  · exact ha
  · exact hpc

theorem exec_keeps_pc_aligned {i : Instr} (hpc : s.pc.toNat % 4 = 0) (h : exec i s = .next t) :
    t.pc.toNat % 4 = 0 := by
  obtain ⟨u, a, hu, ha, rfl⟩ := exec_next h
  exact commitPc_aligned (nextPc_aligned ha hpc) (by rwa [effect_pc hu])

theorem takeUnknown_keeps_pc_aligned (e : Unknown) (w : Word) (hpc : s.pc.toNat % 4 = 0) :
    (takeUnknown e w s).pc.toNat % 4 = 0 := by
  obtain ⟨r, d, heq, -⟩ := takeUnknown_eq e w s
  rw [heq, takeHalt_pc]
  split
  · exact add_four_aligned hpc
  · exact hpc

/-- Fetch leaves the pc alone, in range or not (R70). -/
theorem fetch_pc {w : Word} (h : fetch s = .ok (w, t)) : t.pc = s.pc := by
  rcases fetch_ok h with ⟨rfl, -, -⟩ | ⟨-, rfl, -⟩
  · rfl
  · exact report_pc s _

end

/-! ## The obligations -/

/-- Settles O11: a halted core stays, and a running one goes where its instruction, or the halt on UNKNOWN,
commits the pc. -/
theorem stepKeepsThePcAligned : Obligations.StepKeepsThePcAligned := by
  intro s t hpc h
  obtain ⟨-, ⟨-, rfl⟩ | ⟨-, w, s1, hf, hrun⟩⟩ := step_next h
  · exact hpc
  · have hpc1 : s1.pc.toNat % 4 = 0 := by rwa [fetch_pc hf]
    rcases hrun with ⟨i, -, hi⟩ | ⟨e, -, rfl⟩
    · exact exec_keeps_pc_aligned hpc1 hi
    · exact takeUnknown_keeps_pc_aligned e w hpc1

/-- Settles O19: the row's opcode is J's, and J is one commit of its target. -/
theorem jumpGoesToItsRegionAndIndex : Obligations.JumpGoesToItsRegionAndIndex := by
  constructor
  · intro w hw
    rw [decodeWord_of_op_j (fieldOp_of_row hw), fieldIndex_eq_ofNat]
  · intro index s
    exact ⟨_, _, jumpTarget_toNat s.pc index, exec_j index s, commitPc_onlyMovesPc _ s⟩

/-- Settles O20: the row's opcode is BNE's, and BNE is the branch on `readReg rs s ≠ readReg rt s`. -/
theorem bneBranchesWhenNotEqual : Obligations.BneBranchesWhenNotEqual := by
  constructor
  · intro w hw
    rw [decodeWord_of_op_bne (fieldOp_of_row hw), fieldA_eq, fieldB_eq, fieldImm16_eq_ofNat]
    rfl
  · intro rs rt imm16 s hs ht
    refine ⟨_, exec_bne imm16 s hs ht, ?_⟩
    simpa using branch_onlyMovesPc (readReg rs s != readReg rt s) imm16 s

/-- Settles O21: the row's opcode is BEQ's, and BEQ is the branch on `readReg rs s = readReg rt s`. -/
theorem beqBranchesWhenEqual : Obligations.BeqBranchesWhenEqual := by
  constructor
  · intro w hw
    rw [decodeWord_of_op_beq (fieldOp_of_row hw), fieldA_eq, fieldB_eq, fieldImm16_eq_ofNat]
    rfl
  · intro rs rt imm16 s hs ht
    refine ⟨_, exec_beq imm16 s hs ht, ?_⟩
    simpa using branch_onlyMovesPc (readReg rs s == readReg rt s) imm16 s

end Sys2Proof.Proofs
end

