-- ==== Sys2Proof/Proofs/SystemCall.lean ====
section
/-! PROOF. SYSCALL and the console (spec/42_system.md): which words are SYSCALL, what each code does and
leaves unchanged (R140), and how a console value is spelled (R141). -/

namespace Sys2Proof.Proofs

open Sys2Proof.Machine Sys2Proof.Laws

/-! ## Which words are a SYSCALL (R102) -/

section
variable {w : Word}

/-- The opcode is part of what the mask of the function table keeps. -/
theorem fieldOp_and_functMask (w : Word) : fieldOp (w &&& 0xFC00003F#32) = fieldOp w := by
  simp only [fieldOp, BitVec.extractLsb'_and]
  rw [show (0xFC00003F#32).extractLsb' 26 6 = BitVec.allOnes 6 by decide, BitVec.and_allOnes]

/-- The function field is the other part. -/
theorem fieldFunct_and_functMask (w : Word) : fieldFunct (w &&& 0xFC00003F#32) = fieldFunct w := by
  simp only [fieldFunct, BitVec.extractLsb'_and]
  rw [show (0xFC00003F#32).extractLsb' 0 6 = BitVec.allOnes 6 by decide, BitVec.and_allOnes]

/-- A word that matches a row of the function table has the row's opcode and function field. -/
theorem fieldOp_fieldFunct_of_row {row : Word} (h : w &&& 0xFC00003F#32 = row) :
    fieldOp w = fieldOp row ∧ fieldFunct w = fieldFunct row := by
  rw [← h, fieldOp_and_functMask, fieldFunct_and_functMask]
  exact ⟨rfl, rfl⟩

theorem fieldCode_eq_ofNat (w : Word) : fieldCode w = BitVec.ofNat 18 (w.toNat / 2 ^ 6) := by
  apply BitVec.eq_of_toNat_eq
  rw [fieldCode_toNat, BitVec.toNat_ofNat]

theorem decodeWord_of_funct_syscall (hop : fieldOp w = 0#6) (hfunct : fieldFunct w = 0x3E#6) :
    decodeWord w = .ok (.syscall (fieldCode w)) := by
  simp [decodeWord, decodeFunct, hop, hfunct]

end

/-! ## What SYSCALL does (R140), one equation per kind of code -/

theorem exec_syscall_zero (s : State) : exec (.syscall 0#18) s = .next (takeHalt .syscallExit none s) := rfl

theorem exec_syscall_one (s : State) :
    exec (.syscall 1#18) s = .next (advance (emit (readReg 0 s) s)) := rfl

theorem exec_syscall_of_two_le {code : BitVec 18} (h : 2 ≤ code.toNat) (s : State) :
    exec (.syscall code) s = .next (advance (report (.unhandledSyscall s.pc code) s)) := by
  have h0 : code ≠ 0#18 := by rintro rfl; exact absurd h (by decide)
  have h1 : code ≠ 1#18 := by rintro rfl; exact absurd h (by decide)
  rw [exec, execSyscall, if_neg h0, if_neg h1]

/-- A step that appends one event to the trace and goes on, whatever the event is (R27, R28). -/
theorem advance_event_onlyReports (e : Event) (s : State) :
    OnlyReports e s (advance { s with trace := s.trace ++ [e] }) :=
  ⟨by simp, fun i _ => readReg_congr (by simp) i, ⟨by simp, fun _ => by simp⟩,
    ⟨by simp, by simp, by simp, by simp⟩, fun h => by simp [h]⟩

theorem advance_emit_onlyReports (v : Word) (s : State) : OnlyReports (.console v) s (advance (emit v s)) :=
  advance_event_onlyReports (.console v) s

theorem advance_report_onlyReports (d : Diag) (s : State) : OnlyReports (.diag d) s (advance (report d s)) :=
  advance_event_onlyReports (.diag d) s

/-! ## The digits of a console value (R141) -/

/-- With fuel for every digit, the model's digits of a positive number are the library's, which come least
significant first. -/
theorem decimalDigits_eq_reverse_digits {fuel n : Nat} (hpos : 0 < n) (hfuel : n < 10 ^ fuel) :
    decimalDigits fuel n = (Nat.digits 10 n).reverse := by
  induction fuel generalizing n with
  | zero => omega
  | succ fuel ih =>
    rw [decimalDigits]
    split
    case isTrue hsmall => simp [Nat.digits_of_lt 10 n hpos.ne' hsmall]
    case isFalse hlarge =>
      rw [ih (by omega) (by omega), Nat.digits_def' (by decide) hpos, List.reverse_cons]

/-- Ten digits are enough for every word. -/
theorem word_lt_ten_pow (v : Word) : v.toNat < 10 ^ 10 := by
  have := v.isLt
  omega

/-- `ds` spells `n` in decimal, most significant digit first, with no leading zero but in the spelling of 0. -/
structure SpellsDecimal (ds : List Nat) (n : Nat) : Prop where
  nonempty : ds ≠ []
  digit : ∀ d ∈ ds, d < 10
  noLeadingZero : ds.head? = some 0 → ds = [0]
  value : ds.foldl (fun n d => n * 10 + d) 0 = n

theorem spellsDecimal_zero : SpellsDecimal [0] 0 :=
  ⟨by simp, by simp, fun _ => rfl, rfl⟩

theorem spellsDecimal_reverse_digits {n : Nat} (hpos : 0 < n) : SpellsDecimal (Nat.digits 10 n).reverse n where
  nonempty := List.reverse_ne_nil_iff.mpr (Nat.digits_ne_nil_iff_ne_zero.mpr hpos.ne')
  digit := fun d hd => Nat.digits_lt_base (by decide) (List.mem_reverse.mp hd)
  noLeadingZero := fun hzero => by
    have hne : Nat.digits 10 n ≠ [] := Nat.digits_ne_nil_iff_ne_zero.mpr hpos.ne'
    rw [List.head?_reverse, List.getLast?_eq_some_getLast hne] at hzero
    exact absurd (Option.some.inj hzero) (Nat.getLast_digit_ne_zero 10 hpos.ne')
  value := by
    calc (Nat.digits 10 n).reverse.foldl (fun n d => n * 10 + d) 0
        = (Nat.digits 10 n).foldr (fun d n => d + 10 * n) 0 := by
          simp only [List.foldl_reverse, Nat.mul_comm, Nat.add_comm]
      _ = Nat.ofDigits 10 (Nat.digits 10 n) := (Nat.ofDigits_eq_foldr 10 _).symm
      _ = n := Nat.ofDigits_digits 10 n

theorem decimalDigits_spellsDecimal (v : Word) : SpellsDecimal (decimalDigits 10 v.toNat) v.toNat := by
  rcases Nat.eq_zero_or_pos v.toNat with hzero | hpos
  · rw [hzero]
    exact spellsDecimal_zero
  · rw [decimalDigits_eq_reverse_digits hpos (word_lt_ten_pow v)]
    exact spellsDecimal_reverse_digits hpos

/-! ## The obligations -/

/-- Settles O22: the row's two fields are SYSCALL's, and each kind of code is a halt or one event. -/
theorem syscallHaltsEmitsOrReports : Obligations.SyscallHaltsEmitsOrReports := by
  constructor
  · intro w hw
    obtain ⟨hop, hfunct⟩ := fieldOp_fieldFunct_of_row hw
    rw [decodeWord_of_funct_syscall hop hfunct, fieldCode_eq_ofNat]
  · intro s
    refine ⟨⟨_, exec_syscall_zero s, takeHalt_onlyHalts .syscallExit none⟩,
      ⟨_, exec_syscall_one s, advance_emit_onlyReports _ s⟩, fun code hcode => ?_⟩
    exact ⟨_, exec_syscall_of_two_le hcode s, advance_report_onlyReports _ s⟩

/-- Settles O51: the line's digits are `decimalDigits`, which spell the word's unsigned value. -/
theorem consoleLineIsUnsignedDecimal : Obligations.ConsoleLineIsUnsignedDecimal := by
  intro v
  obtain ⟨hne, hdigit, hlead, hvalue⟩ := decimalDigits_spellsDecimal v
  exact ⟨_, rfl, hne, hdigit, hlead, hvalue⟩

end Sys2Proof.Proofs
end

