-- ==== Sys2Proof/Proofs/AluPrimitives.lean ====
section
/-! PROOF. The bit primitives of the ALU (spec/44_alu.md R170 to R174): where rotate_right and deposit put each
bit, what run count_leading_sign counts, and what saturate clamps to. -/

namespace Sys2Proof.Proofs

open Sys2Proof.Machine

/-! ## rotate_right (R170) -/

/-- Within the amounts R170 allows, the model's rotation is the library's. -/
theorem rotateRight_eq (v : Word) {n : Nat} (hn : n < 32) : rotateRight v n = v.rotateRight n := by
  rw [BitVec.rotateRight_def, Nat.mod_eq_of_lt hn, rotateRight]
  split
  case isTrue hzero => simp [hzero]
  case isFalse => rfl

theorem rotateRight_zero (v : Word) : rotateRight v 0 = v := rfl

theorem rotateRight_getLsbD (v : Word) {n i : Nat} (hn : n < 32) (hi : i < 32) :
    (rotateRight v n).getLsbD i = v.getLsbD ((i + n) % 32) := by
  rw [rotateRight_eq v hn, BitVec.getLsbD_rotateRight, Nat.mod_eq_of_lt hn]
  by_cases hwrap : i < 32 - n
  · have hsource : (i + n) % 32 = n + i := by omega
    simp [hwrap, hsource]
  · have hsource : (i + n) % 32 = i - (32 - n) := by omega
    simp [hwrap, hi, hsource]

/-! ## deposit (R172) -/

/-- How many bits of the mask are set below bit `n`: the number of the source bit the scan is at. -/
def maskBitsBelow (mask : Word) (n : Nat) : Nat := (List.range n).countP fun j => mask.getLsbD j

theorem maskBitsBelow_succ (mask : Word) (n : Nat) :
    maskBitsBelow mask (n + 1) = maskBitsBelow mask n + (mask.getLsbD n).toNat := by
  cases h : mask.getLsbD n <;> simp [maskBitsBelow, List.range_succ, h]

theorem depositLoop_succ_fst (src mask : Word) (n : Nat) :
    (depositLoop src mask (n + 1)).1 = (depositLoop src mask n).1 |||
      (if mask.getLsbD n && src.getLsbD (depositLoop src mask n).2 then BitVec.twoPow 32 n else 0#32) := by
  cases hmask : mask.getLsbD n <;> cases hsrc : src.getLsbD (depositLoop src mask n).2 <;>
    simp [depositLoop, hmask, hsrc]

theorem depositLoop_succ_snd (src mask : Word) (n : Nat) :
    (depositLoop src mask (n + 1)).2 = (depositLoop src mask n).2 + (mask.getLsbD n).toNat := by
  cases hmask : mask.getLsbD n <;> simp [depositLoop, hmask]

/-- The loop has consumed one source bit for each mask bit it has passed. -/
theorem depositLoop_snd (src mask : Word) (n : Nat) : (depositLoop src mask n).2 = maskBitsBelow mask n := by
  induction n with
  | zero => rfl
  | succ n ih => rw [depositLoop_succ_snd, maskBitsBelow_succ, ih]

theorem getLsbD_ite_twoPow (b : Bool) {n : Nat} (hn : n < 32) (i : Nat) :
    (if b then BitVec.twoPow 32 n else 0#32).getLsbD i = (b && decide (n = i)) := by
  cases b <;> simp [hn]

/-- The loop's invariant: the positions it has passed hold their final bits, and the others are 0. -/
theorem depositLoop_fst_getLsbD (src mask : Word) {n : Nat} (hn : n ≤ 32) (i : Nat) :
    (depositLoop src mask n).1.getLsbD i =
      (decide (i < n) && (mask.getLsbD i && src.getLsbD (maskBitsBelow mask i))) := by
  induction n with
  | zero => simp [depositLoop]
  | succ n ih =>
    rw [depositLoop_succ_fst, depositLoop_snd, BitVec.getLsbD_or, ih (by omega),
      getLsbD_ite_twoPow _ (by omega)]
    by_cases hat : n = i
    · simp [hat]
    · have hpassed : i < n + 1 ↔ i < n := by omega
      simp [hat, hpassed]

theorem deposit_getLsbD (src mask : Word) {i : Nat} (hi : i < 32) :
    (deposit src mask).getLsbD i = (mask.getLsbD i && src.getLsbD (maskBitsBelow mask i)) := by
  rw [deposit, depositLoop_fst_getLsbD src mask (Nat.le_refl 32)]
  simp [hi]

/-! ## count_leading_sign (R173) -/

section
variable {x : Word} {sign : Bool}

theorem signRun_succ_of_eq {n : Nat} (h : x.getLsbD n = sign) :
    signRun x sign (n + 1) = signRun x sign n + 1 := if_pos h

theorem signRun_succ_of_ne {n : Nat} (h : x.getLsbD n ≠ sign) : signRun x sign (n + 1) = 0 := if_neg h

theorem signRun_le (x : Word) (sign : Bool) (n : Nat) : signRun x sign n ≤ n := by
  induction n with
  | zero => exact Nat.le_refl 0
  | succ n ih =>
    by_cases h : x.getLsbD n = sign
    · rw [signRun_succ_of_eq h]
      omega
    · rw [signRun_succ_of_ne h]
      omega

/-- Every bit the scan counts equals the sign. -/
theorem getLsbD_of_le_signRun {n j : Nat} (hpos : 1 ≤ j) (hj : j ≤ signRun x sign n) :
    x.getLsbD (n - j) = sign := by
  induction n generalizing j with
  | zero => exact absurd (Nat.le_trans hpos hj) (Nat.not_succ_le_zero 0)
  | succ n ih =>
    by_cases h : x.getLsbD n = sign
    · rw [signRun_succ_of_eq h] at hj
      obtain rfl | hlater : j = 1 ∨ 2 ≤ j := by omega
      · exact h
      · have hrest := ih (j := j - 1) (by omega) (by omega)
        rwa [show n - (j - 1) = n + 1 - j by omega] at hrest
    · rw [signRun_succ_of_ne h] at hj
      omega

/-- The bit at which the scan stops differs from the sign. -/
theorem getLsbD_ne_of_signRun_lt {n : Nat} (hlt : signRun x sign n < n) :
    x.getLsbD (n - 1 - signRun x sign n) ≠ sign := by
  induction n with
  | zero => exact absurd hlt (Nat.not_lt_zero _)
  | succ n ih =>
    by_cases h : x.getLsbD n = sign
    · rw [signRun_succ_of_eq h] at hlt ⊢
      rw [show n + 1 - 1 - (signRun x sign n + 1) = n - 1 - signRun x sign n by omega]
      exact ih (by omega)
    · rw [signRun_succ_of_ne h]
      exact h

end

theorem countLeadingSign_le (x : Word) : countLeadingSign x ≤ 31 := signRun_le x _ 31

/-! ## saturate (R174) -/

section
variable {n : Nat}

theorem saturate_zero (v : Word) : saturate v 0 = v := rfl

/-- An N-bit signed range lies inside that of a word. -/
theorem two_pow_pred_le (hn : n ≤ 32) : (2 : Int) ^ (n - 1) ≤ 2 ^ 31 :=
  pow_le_pow_right₀ (by decide) (by omega)

/-- The clamped value is in the signed range of a word, so that storing it loses nothing. -/
theorem saturate_toInt (v : Word) (hpos : 1 ≤ n) (hn : n ≤ 32) :
    (saturate v n).toInt = min (max v.toInt (-2 ^ (n - 1))) (2 ^ (n - 1) - 1) := by
  have hle := two_pow_pred_le hn
  have hone : (1 : Int) ≤ 2 ^ (n - 1) := one_le_pow₀ (by decide)
  rw [saturate, if_neg (by omega), BitVec.toInt_ofInt_eq_self (by decide)]
  · show -2 ^ 31 ≤ _
    omega
  · show _ < 2 ^ 31
    omega

theorem saturate_of_lt (v : Word) (hpos : 1 ≤ n) (hn : n ≤ 32) (h : v.toInt < -2 ^ (n - 1)) :
    (saturate v n).toInt = -2 ^ (n - 1) := by
  have hone : (1 : Int) ≤ 2 ^ (n - 1) := one_le_pow₀ (by decide)
  rw [saturate_toInt v hpos hn]
  omega

theorem saturate_of_gt (v : Word) (hpos : 1 ≤ n) (hn : n ≤ 32) (h : 2 ^ (n - 1) - 1 < v.toInt) :
    (saturate v n).toInt = 2 ^ (n - 1) - 1 := by
  rw [saturate_toInt v hpos hn]
  omega

theorem saturate_of_mem (v : Word) (hpos : 1 ≤ n) (hn : n ≤ 32) (hlo : -2 ^ (n - 1) ≤ v.toInt)
    (hhi : v.toInt ≤ 2 ^ (n - 1) - 1) : saturate v n = v := by
  apply BitVec.eq_of_toInt_eq
  rw [saturate_toInt v hpos hn]
  omega

end

/-! ## The obligations -/

/-- Settles O27: the rotation is the library's, split at the bit where the source index wraps. -/
theorem rotateRightMovesEveryBit : Obligations.RotateRightMovesEveryBit := by
  intro v n hn
  exact ⟨rotateRight_zero v, fun _ hi => rotateRight_getLsbD v (by omega) hi⟩

/-- Settles O28, by the invariant of deposit's loop. -/
theorem depositScattersTheLowBits : Obligations.DepositScattersTheLowBits := by
  intro src mask i hi
  exact deposit_getLsbD src mask hi

/-- Settles O29: the bound, the bits and the stop of the scan from bit 30 down. -/
theorem leadingSignCountIsTheLongestRun : Obligations.LeadingSignCountIsTheLongestRun := by
  intro x
  exact ⟨countLeadingSign_le x, fun _ hpos hj => getLsbD_of_le_signRun hpos hj,
    fun hlt => getLsbD_ne_of_signRun_lt hlt⟩

/-- Settles O30: `saturate_toInt` on each of the three parts of the integers. -/
theorem saturateClampsToTheSignedRange : Obligations.SaturateClampsToTheSignedRange := by
  intro v n hn
  refine ⟨saturate_zero v, fun hpos => ⟨?below, ?above, ?inside⟩⟩
  case below => exact saturate_of_lt v hpos (by omega)
  case above => exact saturate_of_gt v hpos (by omega)
  case inside => exact saturate_of_mem v hpos (by omega)

end Sys2Proof.Proofs
end

