-- ==== Sys2Proof/Proofs/AluInstructions.lean ====
section
/-! PROOF. The ALU's instructions (spec/44_alu.md R175 to R181): which words are theirs, and that each writes
its result to its destination and nothing else. -/

namespace Sys2Proof.Proofs

open Sys2Proof.Machine Sys2Proof.Laws

/-! ## Which words are an ALU instruction (R101, R102) -/

section
variable {w : Word}

theorem fieldImm5_eq_ofNat (w : Word) : fieldImm5 w = BitVec.ofNat 5 (w.toNat / 2 ^ 11) := by
  apply BitVec.eq_of_toNat_eq
  rw [fieldImm5_toNat, BitVec.toNat_ofNat]

theorem decodeWord_of_op_rori (h : fieldOp w = 0x3B#6) :
    decodeWord w = .ok (.rori (fieldA w) (fieldB w) (fieldImm5 w)) := by
  simp [decodeWord, decodePrimary, h]

theorem decodeWord_of_op_slti (h : fieldOp w = 0x16#6) :
    decodeWord w = .ok (.slti (fieldA w) (fieldB w) (fieldImm16 w)) := by
  simp [decodeWord, decodePrimary, h]

theorem decodeWord_of_op_ssat (h : fieldOp w = 0x0F#6) :
    decodeWord w = .ok (.ssat (fieldA w) (fieldB w) (fieldImm5 w)) := by
  simp [decodeWord, decodePrimary, h]

theorem decodeWord_of_funct_bdep (hop : fieldOp w = 0#6) (hfunct : fieldFunct w = 0x3A#6) :
    decodeWord w = .ok (.bdep (fieldA w) (fieldB w) (fieldC w)) := by
  simp [decodeWord, decodeFunct, hop, hfunct]

theorem decodeWord_of_funct_cls (hop : fieldOp w = 0#6) (hfunct : fieldFunct w = 0x39#6) :
    decodeWord w = .ok (.cls (fieldA w) (fieldB w)) := by
  simp [decodeWord, decodeFunct, hop, hfunct]

theorem decodeWord_of_funct_add (hop : fieldOp w = 0#6) (hfunct : fieldFunct w = 0x2B#6) :
    decodeWord w = .ok (.add (fieldA w) (fieldB w) (fieldC w)) := by
  simp [decodeWord, decodeFunct, hop, hfunct]

theorem decodeWord_of_funct_and (hop : fieldOp w = 0#6) (hfunct : fieldFunct w = 0x2D#6) :
    decodeWord w = .ok (.and (fieldA w) (fieldB w) (fieldC w)) := by
  simp [decodeWord, decodeFunct, hop, hfunct]

end

/-! ## What an ALU instruction does, one equation each, and its end, said once for all -/

section
variable {a b c : Nat} (s : State)

theorem exec_rori (imm5 : BitVec 5) (ha : a < 32) (hb : b < 32) :
    exec (.rori a b imm5) s = finishAlu a (rotateRight (readReg b s) imm5.toNat) s := by
  rw [exec, execRori]
  exact withRegs_ok (by simp [ha, hb])

theorem exec_slti (imm16 : BitVec 16) (ha : a < 32) (hb : b < 32) :
    exec (.slti a b imm16) s = finishAlu b (setLess (readReg a s) (sext16 imm16)) s := by
  rw [exec, execSlti]
  exact withRegs_ok (by simp [ha, hb])

theorem exec_bdep (ha : a < 32) (hb : b < 32) (hc : c < 32) :
    exec (.bdep a b c) s = finishAlu a (deposit (readReg b s) (readReg c s)) s := by
  rw [exec, execBdep]
  exact withRegs_ok (by simp [ha, hb, hc])

theorem exec_cls (ha : a < 32) (hb : b < 32) :
    exec (.cls a b) s = finishAlu a (BitVec.ofNat 32 (countLeadingSign (readReg b s))) s := by
  rw [exec, execCls]
  exact withRegs_ok (by simp [ha, hb])

theorem exec_add (ha : a < 32) (hb : b < 32) (hc : c < 32) :
    exec (.add a b c) s = finishAlu c (readReg a s + readReg b s) s := by
  rw [exec, execAdd]
  exact withRegs_ok (by simp [ha, hb, hc])

theorem exec_and (ha : a < 32) (hb : b < 32) (hc : c < 32) :
    exec (.and a b c) s = finishAlu c (readReg a s &&& readReg b s) s := by
  rw [exec, execAnd]
  exact withRegs_ok (by simp [ha, hb, hc])

theorem exec_ssat (imm5 : BitVec 5) (ha : a < 32) (hb : b < 32) :
    exec (.ssat a b imm5) s = finishAlu a (saturate (readReg b s) imm5.toNat) s := by
  rw [exec, execSsat]
  exact withRegs_ok (by simp [ha, hb])

/-- The end of an ALU instruction answers, with the value in the destination and all else as it was. -/
theorem finishAlu_next {rd : Nat} (v : Word) (h : rd < 32) :
    ∃ t, finishAlu rd v s = .next t ∧ readReg rd t = v ∧ OnlyWrites rd s t := by
  refine ⟨_, rfl, ?_, advance_writeReg_onlyWrites rd v⟩
  rw [readReg_advance, readReg_writeReg_self s rd v h]

end

/-! ## The results as numbers -/

theorem sext16_toInt (imm16 : BitVec 16) : (sext16 imm16).toInt = imm16.toInt :=
  BitVec.toInt_signExtend_of_le (by decide)

/-- The count fits a register: it is at most 31 (R173). -/
theorem ofNat_countLeadingSign_toNat (x : Word) :
    (BitVec.ofNat 32 (countLeadingSign x)).toNat = countLeadingSign x := by
  have hle := countLeadingSign_le x
  rw [BitVec.toNat_ofNat]
  omega

/-! ## The obligations -/

/-- Settles O31: the row's opcode is RORI's, and RORI ends by writing the rotated word. -/
theorem roriRotatesRight : Obligations.RoriRotatesRight := by
  constructor
  · intro w hw
    rw [decodeWord_of_op_rori (fieldOp_of_row hw), fieldA_eq, fieldB_eq, fieldImm5_eq_ofNat]
    rfl
  · intro rd rs imm5 s hd hs
    rw [exec_rori s imm5 hd hs]
    exact finishAlu_next s _ hd

/-- Settles O32: the row's opcode is SLTI's, and sign extension keeps the immediate's signed value. -/
theorem sltiComparesSigned : Obligations.SltiComparesSigned := by
  constructor
  · intro w hw
    rw [decodeWord_of_op_slti (fieldOp_of_row hw), fieldA_eq, fieldB_eq, fieldImm16_eq_ofNat]
    rfl
  · intro rs rt imm16 s hs ht
    rw [exec_slti s imm16 hs ht, setLess, sext16_toInt]
    exact finishAlu_next s _ ht

/-- Settles O33: the row's two fields are BDEP's, and BDEP ends by writing the deposit. -/
theorem bdepDepositsUnderItsMask : Obligations.BdepDepositsUnderItsMask := by
  constructor
  · intro w hw
    obtain ⟨hop, hfunct⟩ := fieldOp_fieldFunct_of_row hw
    rw [decodeWord_of_funct_bdep hop hfunct, fieldA_eq, fieldB_eq, fieldC_eq]
    rfl
  · intro rd rs1 rs2 s hd hs1 hs2
    rw [exec_bdep s hd hs1 hs2]
    exact finishAlu_next s _ hd

/-- Settles O34: the row's two fields are CLS's, and the count it writes fits the register. -/
theorem clsCountsLeadingSignBits : Obligations.ClsCountsLeadingSignBits := by
  constructor
  · intro w hw
    obtain ⟨hop, hfunct⟩ := fieldOp_fieldFunct_of_row hw
    rw [decodeWord_of_funct_cls hop hfunct, fieldA_eq, fieldB_eq]
    rfl
  · intro rd rs s hd hs
    rw [exec_cls s hd hs]
    obtain ⟨t, ht, hvalue, hframe⟩ := finishAlu_next s (BitVec.ofNat 32 (countLeadingSign (readReg rs s))) hd
    exact ⟨t, ht, by rw [hvalue, ofNat_countLeadingSign_toNat], hframe⟩

/-- Settles O35: the row's two fields are ADD's, and the sum of words is the sum modulo 2^32. -/
theorem addWrapsModuloWordSize : Obligations.AddWrapsModuloWordSize := by
  constructor
  · intro w hw
    obtain ⟨hop, hfunct⟩ := fieldOp_fieldFunct_of_row hw
    rw [decodeWord_of_funct_add hop hfunct, fieldA_eq, fieldB_eq, fieldC_eq]
    rfl
  · intro rs rt rd s hs ht hd
    rw [exec_add s hs ht hd]
    obtain ⟨t, hnext, hvalue, hframe⟩ := finishAlu_next s (readReg rs s + readReg rt s) hd
    exact ⟨t, hnext, by rw [hvalue, BitVec.toNat_add], hframe⟩

/-- Settles O36: the row's two fields are AND's, and each bit of the conjunction is that of the bits. -/
theorem andIsBitwise : Obligations.AndIsBitwise := by
  constructor
  · intro w hw
    obtain ⟨hop, hfunct⟩ := fieldOp_fieldFunct_of_row hw
    rw [decodeWord_of_funct_and hop hfunct, fieldA_eq, fieldB_eq, fieldC_eq]
    rfl
  · intro rs rt rd s hs ht hd
    rw [exec_and s hs ht hd]
    obtain ⟨t, hnext, hvalue, hframe⟩ := finishAlu_next s (readReg rs s &&& readReg rt s) hd
    exact ⟨t, hnext, fun k => by rw [hvalue, BitVec.getLsbD_and], hframe⟩

/-- Settles O37: the row's opcode is SSAT's, and SSAT ends by writing the saturated word. -/
theorem ssatSaturatesToItsWidth : Obligations.SsatSaturatesToItsWidth := by
  constructor
  · intro w hw
    rw [decodeWord_of_op_ssat (fieldOp_of_row hw), fieldA_eq, fieldB_eq, fieldImm5_eq_ofNat]
    rfl
  · intro rd rs imm5 s hd hs
    rw [exec_ssat s imm5 hd hs]
    exact finishAlu_next s _ hd

end Sys2Proof.Proofs
end

