-- ==== Sys2Proof/Proofs/Encoding.lean ====
section
/-! PROOF. Decoder and encoder (spec/30_encoding.md): which words decode to which instruction, that encoding and
decoding undo each other, and that unused bits are ignored (R92 to R102). -/

namespace Sys2Proof.Proofs

open Sys2Proof.Machine Sys2Proof.Laws

/-! ## Well-formed instructions (R92) -/

theorem wellFormed_iff {i : Instr} : WellFormed i ↔ ∀ r ∈ i.registers, r < 32 := by
  simp [WellFormed, Instr.wellFormed]

/-! ## Which words decode to which instruction (R101, R102) -/

section
variable {w w' : Word} {i : Instr}

theorem decodeWord_of_op_ld (h : fieldOp w = 0x1A#6) :
    decodeWord w = .ok (.ld (fieldA w) (fieldB w) (fieldImm16 w)) := by
  simp [decodeWord, decodePrimary, h]

theorem decodeWord_of_op_st (h : fieldOp w = 0x03#6) :
    decodeWord w = .ok (.st (fieldA w) (fieldB w) (fieldImm16 w)) := by
  simp [decodeWord, decodePrimary, h]

theorem decodeWord_of_op_stp (h : fieldOp w = 0x08#6) :
    decodeWord w = .ok (.stp (fieldA w) (fieldB w) (fieldC w) (fieldOff11 w)) := by
  simp [decodeWord, decodePrimary, h]

/-- The two tables as a relation: one constructor per row, with the row's fields. -/
inductive DecodesTo (w : Word) : Instr → Prop where
  | j (hop : fieldOp w = 0x27#6) : DecodesTo w (.j (fieldIndex w))
  | syscall (hop : fieldOp w = 0#6) (hfunct : fieldFunct w = 0x3E#6) : DecodesTo w (.syscall (fieldCode w))
  | stp (hop : fieldOp w = 0x08#6) : DecodesTo w (.stp (fieldA w) (fieldB w) (fieldC w) (fieldOff11 w))
  | rori (hop : fieldOp w = 0x3B#6) : DecodesTo w (.rori (fieldA w) (fieldB w) (fieldImm5 w))
  | slti (hop : fieldOp w = 0x16#6) : DecodesTo w (.slti (fieldA w) (fieldB w) (fieldImm16 w))
  | st (hop : fieldOp w = 0x03#6) : DecodesTo w (.st (fieldA w) (fieldB w) (fieldImm16 w))
  | bdep (hop : fieldOp w = 0#6) (hfunct : fieldFunct w = 0x3A#6) :
      DecodesTo w (.bdep (fieldA w) (fieldB w) (fieldC w))
  | cls (hop : fieldOp w = 0#6) (hfunct : fieldFunct w = 0x39#6) : DecodesTo w (.cls (fieldA w) (fieldB w))
  | add (hop : fieldOp w = 0#6) (hfunct : fieldFunct w = 0x2B#6) :
      DecodesTo w (.add (fieldA w) (fieldB w) (fieldC w))
  | bne (hop : fieldOp w = 0x24#6) : DecodesTo w (.bne (fieldA w) (fieldB w) (fieldImm16 w))
  | beq (hop : fieldOp w = 0x02#6) : DecodesTo w (.beq (fieldA w) (fieldB w) (fieldImm16 w))
  | ld (hop : fieldOp w = 0x1A#6) : DecodesTo w (.ld (fieldA w) (fieldB w) (fieldImm16 w))
  | and (hop : fieldOp w = 0#6) (hfunct : fieldFunct w = 0x2D#6) :
      DecodesTo w (.and (fieldA w) (fieldB w) (fieldC w))
  | ssat (hop : fieldOp w = 0x0F#6) : DecodesTo w (.ssat (fieldA w) (fieldB w) (fieldImm5 w))

theorem decodeWord_of_decodesTo (h : DecodesTo w i) : decodeWord w = .ok i := by
  cases h with
  | j hop => exact decodeWord_of_op_j hop
  | syscall hop hfunct => exact decodeWord_of_funct_syscall hop hfunct
  | stp hop => exact decodeWord_of_op_stp hop
  | rori hop => exact decodeWord_of_op_rori hop
  | slti hop => exact decodeWord_of_op_slti hop
  | st hop => exact decodeWord_of_op_st hop
  | bdep hop hfunct => exact decodeWord_of_funct_bdep hop hfunct
  | cls hop hfunct => exact decodeWord_of_funct_cls hop hfunct
  | add hop hfunct => exact decodeWord_of_funct_add hop hfunct
  | bne hop => exact decodeWord_of_op_bne hop
  | beq hop => exact decodeWord_of_op_beq hop
  | ld hop => exact decodeWord_of_op_ld hop
  | and hop hfunct => exact decodeWord_of_funct_and hop hfunct
  | ssat hop => exact decodeWord_of_op_ssat hop

/-- The function table: each test of `decodeFunct` that succeeds is one constructor. -/
theorem decodesTo_of_decodeFunct (hop : fieldOp w = 0#6) (h : decodeFunct w = .ok i) : DecodesTo w i := by
  unfold decodeFunct at h
  (repeat' split at h) <;> cases h <;> constructor <;> assumption

/-- The primary table, in the same way. -/
theorem decodesTo_of_decodePrimary (h : decodePrimary w = .ok i) : DecodesTo w i := by
  unfold decodePrimary at h
  (repeat' split at h) <;> cases h <;> constructor <;> assumption

theorem decodeWord_eq_ok_iff : decodeWord w = .ok i ↔ DecodesTo w i := by
  refine ⟨fun h => ?_, decodeWord_of_decodesTo⟩
  unfold decodeWord at h
  split at h
  · exact decodesTo_of_decodeFunct (by assumption) h
  · exact decodesTo_of_decodePrimary h

/-! ## From an instruction to its word and back (R92, R93) -/

theorem decodeWord_encode (h : WellFormed i) : decodeWord (encode i) = .ok i := by
  rw [wellFormed_iff] at h
  cases i <;> simp only [Instr.registers, List.forall_mem_cons, List.not_mem_nil, false_implies, implies_true,
    and_true] at h
  case j index => simp [encode, decodeWord_of_op_j]
  case syscall code => simp [encode, decodeWord_of_funct_syscall]
  case stp base rt1 rt2 off11 =>
    obtain ⟨ha, hb, hc⟩ := h
    simp [encode, decodeWord_of_op_stp, fieldA_encodeP, fieldB_encodeP, fieldC_encodeP, ha, hb, hc]
  case rori => simp [encode, decodeWord_of_op_rori, fieldA_encodeI5, fieldB_encodeI5, h]
  case slti => simp [encode, decodeWord_of_op_slti, fieldA_encodeI16, fieldB_encodeI16, h]
  case st => simp [encode, decodeWord_of_op_st, fieldA_encodeI16, fieldB_encodeI16, h]
  case bdep => simp [encode, decodeWord_of_funct_bdep, fieldA_encodeR, fieldB_encodeR, fieldC_encodeR, h]
  case cls => simp [encode, decodeWord_of_funct_cls, fieldA_encodeR, fieldB_encodeR, h]
  case add => simp [encode, decodeWord_of_funct_add, fieldA_encodeR, fieldB_encodeR, fieldC_encodeR, h]
  case bne => simp [encode, decodeWord_of_op_bne, fieldA_encodeI16, fieldB_encodeI16, h]
  case beq => simp [encode, decodeWord_of_op_beq, fieldA_encodeI16, fieldB_encodeI16, h]
  case ld => simp [encode, decodeWord_of_op_ld, fieldA_encodeI16, fieldB_encodeI16, h]
  case and => simp [encode, decodeWord_of_funct_and, fieldA_encodeR, fieldB_encodeR, fieldC_encodeR, h]
  case ssat => simp [encode, decodeWord_of_op_ssat, fieldA_encodeI5, fieldB_encodeI5, h]

/-- Decoding the bytes of a word is decoding the word (R62, R90). -/
theorem decodeBytes_wordBytes (rest : List Byte) (h : decodeWord w = .ok i) :
    decodeBytes (wordBytes w ++ rest) = .ok (i, rest) := by
  simp [wordBytes, decodeBytes, wordOfBytes_split, h]

theorem decodeWord_of_decodeBytes {b0 b1 b2 b3 : Byte} {rest : List Byte}
    (h : decodeBytes (b0 :: b1 :: b2 :: b3 :: rest) = .ok (i, rest)) :
    decodeWord (wordOfBytes b0 b1 b2 b3) = .ok i := by
  cases hword : decodeWord (wordOfBytes b0 b1 b2 b3) with
  | ok j =>
    simp only [decodeBytes, hword, Except.ok.injEq, Prod.mk.injEq, and_true] at h
    rw [h]
  | error u => simp [decodeBytes, hword] at h

end

/-! ## From a word's fields back to the word, but for the bits its format does not use (R96) -/

section
variable (w : Word)

@[simp] theorem regField_fieldA : regField (fieldA w) = w.extractLsb' 21 5 := BitVec.ofNat_toNat ..
@[simp] theorem regField_fieldB : regField (fieldB w) = w.extractLsb' 16 5 := BitVec.ofNat_toNat ..
@[simp] theorem regField_fieldC : regField (fieldC w) = w.extractLsb' 11 5 := BitVec.ofNat_toNat ..
theorem regField_zero : regField 0 = 0#5 := rfl

/-- A word is the six fields that format R cuts it into, the fifth of them unused. -/
theorem word_eq_fieldsR : w = fieldOp w ++ w.extractLsb' 21 5 ++ w.extractLsb' 16 5 ++ w.extractLsb' 11 5 ++
    w.extractLsb' 6 5 ++ fieldFunct w := by
  apply BitVec.eq_of_toNat_eq
  simp only [toNat_append_eq, fieldOp, fieldFunct, toNat_extract_eq]
  have := w.isLt
  omega

theorem encodeR_fields (hop : fieldOp w = 0#6) :
    encodeR (fieldA w) (fieldB w) (fieldC w) (fieldFunct w) = w &&& 0xFFFFF83F#32 := by
  have hmask : (0xFFFFF83F#32 : Word) = BitVec.allOnes 6 ++ BitVec.allOnes 5 ++ BitVec.allOnes 5 ++
    BitVec.allOnes 5 ++ 0#5 ++ BitVec.allOnes 6 := by decide
  refine Eq.trans ?_ (congrArg₂ (· &&& ·) (word_eq_fieldsR w).symm hmask.symm)
  show _ = (_ &&& _ : BitVec (6 + 5 + 5 + 5 + 5 + 6))
  simp only [BitVec.and_append, BitVec.and_allOnes, BitVec.and_zero, hop, encodeR, regField_fieldA,
    regField_fieldB, regField_fieldC]

theorem encodeCls_fields (hop : fieldOp w = 0#6) :
    encodeR (fieldA w) (fieldB w) 0 (fieldFunct w) = w &&& 0xFFFF003F#32 := by
  have hmask : (0xFFFF003F#32 : Word) = BitVec.allOnes 6 ++ BitVec.allOnes 5 ++ BitVec.allOnes 5 ++
    0#5 ++ 0#5 ++ BitVec.allOnes 6 := by decide
  refine Eq.trans ?_ (congrArg₂ (· &&& ·) (word_eq_fieldsR w).symm hmask.symm)
  show _ = (_ &&& _ : BitVec (6 + 5 + 5 + 5 + 5 + 6))
  simp only [BitVec.and_append, BitVec.and_allOnes, BitVec.and_zero, hop, encodeR, regField_fieldA,
    regField_fieldB, regField_zero]

theorem encodeI5_fields :
    encodeI5 (fieldOp w) (fieldA w) (fieldB w) (fieldImm5 w) = w &&& 0xFFFFF800#32 := by
  have hword : w = fieldOp w ++ w.extractLsb' 21 5 ++ w.extractLsb' 16 5 ++ fieldImm5 w ++ fieldOff11 w := by
    apply BitVec.eq_of_toNat_eq
    simp only [toNat_append_eq, fieldOp, fieldImm5, fieldOff11, toNat_extract_eq]
    have := w.isLt
    omega
  have hmask : (0xFFFFF800#32 : Word) = BitVec.allOnes 6 ++ BitVec.allOnes 5 ++ BitVec.allOnes 5 ++
    BitVec.allOnes 5 ++ 0#11 := by decide
  refine Eq.trans ?_ (congrArg₂ (· &&& ·) hword.symm hmask.symm)
  show _ = (_ &&& _ : BitVec (6 + 5 + 5 + 5 + 11))
  simp only [BitVec.and_append, BitVec.and_allOnes, BitVec.and_zero, encodeI5, regField_fieldA, regField_fieldB]

theorem encodeSys_fields (hop : fieldOp w = 0#6) :
    encodeSys (fieldCode w) (fieldFunct w) = w &&& 0xFCFFFFFF#32 := by
  have hword : w = fieldOp w ++ w.extractLsb' 24 2 ++ fieldCode w ++ fieldFunct w := by
    apply BitVec.eq_of_toNat_eq
    simp only [toNat_append_eq, fieldOp, fieldCode, fieldFunct, toNat_extract_eq]
    have := w.isLt
    omega
  have hmask : (0xFCFFFFFF#32 : Word) = BitVec.allOnes 6 ++ 0#2 ++ BitVec.allOnes 18 ++ BitVec.allOnes 6 := by
    decide
  refine Eq.trans ?_ (congrArg₂ (· &&& ·) hword.symm hmask.symm)
  show _ = (_ &&& _ : BitVec (6 + 2 + 18 + 6))
  simp only [BitVec.and_append, BitVec.and_allOnes, BitVec.and_zero, hop, encodeSys]

/-! The formats that use every bit. -/

theorem and_everyBit : w &&& 0xFFFFFFFF#32 = w := BitVec.and_allOnes

theorem encodeI16_fields : encodeI16 (fieldOp w) (fieldA w) (fieldB w) (fieldImm16 w) = w := by
  apply BitVec.eq_of_toNat_eq
  rw [encodeI16_toNat, fieldOp_toNat, fieldA_eq, fieldB_eq, fieldImm16_toNat]
  have := w.isLt
  omega

theorem encodeJ_fields : encodeJ (fieldOp w) (fieldIndex w) = w := by
  apply BitVec.eq_of_toNat_eq
  rw [encodeJ_toNat, fieldOp_toNat, fieldIndex_toNat]
  have := w.isLt
  omega

theorem encodeP_fields : encodeP (fieldOp w) (fieldA w) (fieldB w) (fieldC w) (fieldOff11 w) = w := by
  apply BitVec.eq_of_toNat_eq
  rw [encodeP_toNat, fieldOp_toNat, fieldA_eq, fieldB_eq, fieldC_eq, fieldOff11_toNat]
  have := w.isLt
  omega

end

section
variable {w w' : Word} {i : Instr}

theorem encode_of_decodesTo (h : DecodesTo w i) : encode i = w &&& usedBits i := by
  cases h with
  | j hop => rw [encode, usedBits, and_everyBit, ← hop, encodeJ_fields]
  | syscall hop hfunct => rw [encode, usedBits, ← hfunct, encodeSys_fields w hop]
  | stp hop => rw [encode, usedBits, and_everyBit, ← hop, encodeP_fields]
  | rori hop => rw [encode, usedBits, ← hop, encodeI5_fields]
  | slti hop => rw [encode, usedBits, and_everyBit, ← hop, encodeI16_fields]
  | st hop => rw [encode, usedBits, and_everyBit, ← hop, encodeI16_fields]
  | bdep hop hfunct => rw [encode, usedBits, ← hfunct, encodeR_fields w hop]
  | cls hop hfunct => rw [encode, usedBits, ← hfunct, encodeCls_fields w hop]
  | add hop hfunct => rw [encode, usedBits, ← hfunct, encodeR_fields w hop]
  | bne hop => rw [encode, usedBits, and_everyBit, ← hop, encodeI16_fields]
  | beq hop => rw [encode, usedBits, and_everyBit, ← hop, encodeI16_fields]
  | ld hop => rw [encode, usedBits, and_everyBit, ← hop, encodeI16_fields]
  | and hop hfunct => rw [encode, usedBits, ← hfunct, encodeR_fields w hop]
  | ssat hop => rw [encode, usedBits, ← hop, encodeI5_fields]

theorem encode_of_decodeWord (h : decodeWord w = .ok i) : encode i = w &&& usedBits i :=
  encode_of_decodesTo (decodeWord_eq_ok_iff.mp h)

theorem wellFormed_of_decodeWord (h : decodeWord w = .ok i) : WellFormed i :=
  wellFormed_iff.mpr (decodeWord_registers h)

/-! ## Unused bits (R96) -/

/-- Words that agree under a mask agree on every field the mask holds. -/
theorem extractLsb'_congr_of_mask {m : Word} {lo len : Nat} (h : w' &&& m = w &&& m)
    (hm : m.extractLsb' lo len = BitVec.allOnes len) : w'.extractLsb' lo len = w.extractLsb' lo len := by
  have hfield := congrArg (BitVec.extractLsb' lo len) h
  simpa only [BitVec.extractLsb'_and, hm, BitVec.and_allOnes] using hfield

/-- Every format uses its opcode. -/
theorem usedBits_op (i : Instr) : (usedBits i).extractLsb' 26 6 = BitVec.allOnes 6 := by
  cases i <;> rw [usedBits] <;> decide

/-- Every row of the function table uses its function field. -/
theorem usedBits_funct (hrow : (tableRow i).1 = 0xFC00003F#32) :
    (usedBits i).extractLsb' 0 6 = BitVec.allOnes 6 := by
  revert hrow
  cases i <;> rw [tableRow, usedBits] <;> decide

theorem fieldOp_congr (h : w' &&& usedBits i = w &&& usedBits i) : fieldOp w' = fieldOp w :=
  extractLsb'_congr_of_mask h (usedBits_op i)

theorem fieldFunct_congr (h : w' &&& usedBits i = w &&& usedBits i)
    (hrow : (tableRow i).1 = 0xFC00003F#32) : fieldFunct w' = fieldFunct w :=
  extractLsb'_congr_of_mask h (usedBits_funct hrow)

/-- A word that agrees on the used bits meets the same row of the tables, since every row's fields are used. -/
theorem decodesTo_of_agree (h : DecodesTo w i) (hw : w' &&& usedBits i = w &&& usedBits i) :
    ∃ j, DecodesTo w' j ∧ usedBits j = usedBits i := by
  have hop' : fieldOp w' = fieldOp w := fieldOp_congr hw
  cases h with
  | j hop => exact ⟨_, .j (hop'.trans hop), rfl⟩
  | syscall hop hfunct =>
    exact ⟨_, .syscall (hop'.trans hop) ((fieldFunct_congr hw rfl).trans hfunct), rfl⟩
  | stp hop => exact ⟨_, .stp (hop'.trans hop), rfl⟩
  | rori hop => exact ⟨_, .rori (hop'.trans hop), rfl⟩
  | slti hop => exact ⟨_, .slti (hop'.trans hop), rfl⟩
  | st hop => exact ⟨_, .st (hop'.trans hop), rfl⟩
  | bdep hop hfunct =>
    exact ⟨_, .bdep (hop'.trans hop) ((fieldFunct_congr hw rfl).trans hfunct), rfl⟩
  | cls hop hfunct =>
    exact ⟨_, .cls (hop'.trans hop) ((fieldFunct_congr hw rfl).trans hfunct), rfl⟩
  | add hop hfunct =>
    exact ⟨_, .add (hop'.trans hop) ((fieldFunct_congr hw rfl).trans hfunct), rfl⟩
  | bne hop => exact ⟨_, .bne (hop'.trans hop), rfl⟩
  | beq hop => exact ⟨_, .beq (hop'.trans hop), rfl⟩
  | ld hop => exact ⟨_, .ld (hop'.trans hop), rfl⟩
  | and hop hfunct =>
    exact ⟨_, .and (hop'.trans hop) ((fieldFunct_congr hw rfl).trans hfunct), rfl⟩
  | ssat hop => exact ⟨_, .ssat (hop'.trans hop), rfl⟩

/-- Encoding loses nothing of a well-formed instruction. -/
theorem eq_of_encode_eq {j : Instr} (hi : WellFormed i) (hj : WellFormed j) (h : encode j = encode i) :
    j = i := by
  have hdec := decodeWord_encode hj
  rw [h, decodeWord_encode hi] at hdec
  exact (Except.ok.inj hdec).symm

/-! ## The rows of the tables, and the words of no row (R100 to R102) -/

/-- A word that matches the row of `i` decodes to an instruction of the same constructor. -/
theorem decodesTo_of_row (i : Instr) (h : w &&& (tableRow i).1 = (tableRow i).2) :
    ∃ j, DecodesTo w j ∧ tableRow j = tableRow i := by
  cases i <;> simp only [tableRow] at h
  case j => exact ⟨_, .j (fieldOp_of_row h), rfl⟩
  case syscall => exact ⟨_, .syscall (fieldOp_fieldFunct_of_row h).1 (fieldOp_fieldFunct_of_row h).2, rfl⟩
  case stp => exact ⟨_, .stp (fieldOp_of_row h), rfl⟩
  case rori => exact ⟨_, .rori (fieldOp_of_row h), rfl⟩
  case slti => exact ⟨_, .slti (fieldOp_of_row h), rfl⟩
  case st => exact ⟨_, .st (fieldOp_of_row h), rfl⟩
  case bdep => exact ⟨_, .bdep (fieldOp_fieldFunct_of_row h).1 (fieldOp_fieldFunct_of_row h).2, rfl⟩
  case cls => exact ⟨_, .cls (fieldOp_fieldFunct_of_row h).1 (fieldOp_fieldFunct_of_row h).2, rfl⟩
  case add => exact ⟨_, .add (fieldOp_fieldFunct_of_row h).1 (fieldOp_fieldFunct_of_row h).2, rfl⟩
  case bne => exact ⟨_, .bne (fieldOp_of_row h), rfl⟩
  case beq => exact ⟨_, .beq (fieldOp_of_row h), rfl⟩
  case ld => exact ⟨_, .ld (fieldOp_of_row h), rfl⟩
  case and => exact ⟨_, .and (fieldOp_fieldFunct_of_row h).1 (fieldOp_fieldFunct_of_row h).2, rfl⟩
  case ssat => exact ⟨_, .ssat (fieldOp_of_row h), rfl⟩

theorem fieldOp_eq_ofNat (w : Word) : fieldOp w = BitVec.ofNat 6 (w.toNat / 2 ^ 26) := by
  apply BitVec.eq_of_toNat_eq
  rw [fieldOp_toNat, BitVec.toNat_ofNat]

theorem fieldFunct_eq_ofNat (w : Word) : fieldFunct w = BitVec.ofNat 6 w.toNat := by
  apply BitVec.eq_of_toNat_eq
  rw [fieldFunct_toNat, BitVec.toNat_ofNat, Nat.pow_zero, Nat.div_one]

/-- The opcode is the word's number divided by 2^26: nothing lies above it. -/
theorem fieldOp_toNat_eq_div (w : Word) : (fieldOp w).toNat = w.toNat / 2 ^ 26 := by
  have := w.isLt
  rw [fieldOp_toNat]
  omega

theorem decodeWord_of_op_unknown
    (h : w.toNat / 2 ^ 26 ∉ [0x00, 0x02, 0x03, 0x08, 0x0F, 0x16, 0x1A, 0x24, 0x27, 0x3B]) :
    decodeWord w = .error (.opcode (fieldOp w)) := by
  rw [← fieldOp_toNat_eq_div] at h
  simp only [List.mem_cons, List.not_mem_nil, or_false, not_or] at h
  simp [decodeWord, decodePrimary, ← BitVec.toNat_inj, h]

theorem decodeWord_of_funct_unknown (hop : w.toNat / 2 ^ 26 = 0)
    (h : w.toNat % 2 ^ 6 ∉ [0x2B, 0x2D, 0x39, 0x3A, 0x3E]) :
    decodeWord w = .error (.funct (fieldFunct w)) := by
  have hfunct : (fieldFunct w).toNat = w.toNat % 2 ^ 6 := by rw [fieldFunct_toNat, Nat.pow_zero, Nat.div_one]
  rw [← fieldOp_toNat_eq_div] at hop
  rw [← hfunct] at h
  simp only [List.mem_cons, List.not_mem_nil, or_false, not_or] at h
  simp [decodeWord, decodeFunct, ← BitVec.toNat_inj, hop, h]

/-- The zero word, which zero fill and a read out of range give, is in neither table. -/
theorem decodeWord_zero : decodeWord 0#32 = .error (.funct 0#6) := rfl

end

/-! ## The obligations -/

/-- Settles O1: each format's fields survive the encoder, and a word's bytes give the word back. -/
theorem decodeOfEncodeIsTheInstruction : Obligations.DecodeOfEncodeIsTheInstruction := by
  intro i rest hwf
  have hword := decodeWord_encode hwf
  exact ⟨hword, decodeBytes_wordBytes rest hword⟩

/-- Settles O2: a decoded instruction holds the word's fields, and each format puts them back in their places. -/
theorem encodeOfDecodeIsTheUsedBits : Obligations.EncodeOfDecodeIsTheUsedBits := by
  intro w i h
  exact ⟨wellFormed_of_decodeWord h, encode_of_decodeWord h⟩

/-- Settles O3: the other word meets the same row, and its instruction has the same encoding. -/
theorem unusedBitsAreIgnored : Obligations.UnusedBitsAreIgnored := by
  intro w w' i h hw
  obtain ⟨j, hj, hused⟩ := decodesTo_of_agree (decodeWord_eq_ok_iff.mp h) hw
  have hj := decodeWord_of_decodesTo hj
  have hencode : encode j = encode i := by
    rw [encode_of_decodeWord hj, encode_of_decodeWord h, hused, hw]
  rw [hj, eq_of_encode_eq (wellFormed_of_decodeWord h) (wellFormed_of_decodeWord hj) hencode]

/-- Settles O4: a row's fields are the decoder's tests, and a word of no row is a halt on UNKNOWN. -/
theorem decoderFollowsTheTwoTables : Obligations.DecoderFollowsTheTwoTables := by
  refine ⟨fun i w h => ?row, fun s s1 w hs hf => ?unknown⟩
  case row =>
    obtain ⟨j, hj, hrow⟩ := decodesTo_of_row i h
    exact ⟨j, decodeWord_of_decodesTo hj, hrow⟩
  case unknown =>
    obtain ⟨href, hhalt⟩ := hs
    rw [← fetch_pc hf]
    refine ⟨fun hop => ⟨_, step_of_unknown href hhalt hf (decodeWord_of_op_unknown hop), ?_⟩,
      fun hop hfunct => ⟨_, step_of_unknown href hhalt hf (decodeWord_of_funct_unknown hop hfunct), ?_⟩⟩
    · rw [← fieldOp_eq_ofNat]
      exact takeHalt_onlyHalts _ (some _)
    · rw [← fieldFunct_eq_ofNat]
      exact takeHalt_onlyHalts _ (some _)

/-- Settles O5: each word's opcode or function field is in the table, and its fields are computed. -/
theorem sampleWordsDecode : Obligations.SampleWordsDecode :=
  ⟨decodeWord_of_funct_add rfl rfl, decodeWord_of_funct_bdep rfl rfl, decodeWord_of_op_stp rfl,
    decodeWord_of_op_rori rfl, decodeWord_of_op_bne rfl, decodeWord_of_funct_syscall rfl rfl,
    decodeWord_of_op_j rfl, decodeWord_zero⟩

end Sys2Proof.Proofs
end

