-- ==== Sys2Proof/Proofs/MemoryAccess.lean ====
section
/-! PROOF. Memory and addresses (spec/20_memory.md, 43_loadstore.md section 1): extensions, byte order, what the two
memory primitives read, write and leave unchanged, and how the parameters choose addresses and checked values. -/

namespace Sys2Proof.Proofs

open Sys2Proof.Machine Sys2Proof.Laws

/-! ## Extensions (R13) -/

theorem zext16_eq_ofNat (v : BitVec 16) : zext16 v = BitVec.ofNat 32 v.toNat :=
  (BitVec.ofNat_toNat ..).symm

theorem zext11_eq_ofNat (v : BitVec 11) : zext11 v = BitVec.ofNat 32 v.toNat :=
  (BitVec.ofNat_toNat ..).symm

theorem sext16_eq_ofInt (v : BitVec 16) : sext16 v = BitVec.ofInt 32 v.toInt := rfl
theorem sext11_eq_ofInt (v : BitVec 11) : sext11 v = BitVec.ofInt 32 v.toInt := rfl

theorem zext16_toNat (v : BitVec 16) : (zext16 v).toNat = v.toNat :=
  BitVec.toNat_setWidth_of_le (by decide)

theorem zext11_toNat (v : BitVec 11) : (zext11 v).toNat = v.toNat :=
  BitVec.toNat_setWidth_of_le (by decide)

theorem sext16_of_sign_clear {v : BitVec 16} (h : v.getLsbD 15 = false) : sext16 v = zext16 v :=
  BitVec.signExtend_eq_setWidth_of_msb_false (by rw [BitVec.msb_eq_getLsbD_last]; exact h)

/-- A set sign bit adds ones from bit 16 on. -/
theorem sext16_of_sign_set {v : BitVec 16} (h : v.getLsbD 15 = true) : sext16 v = 0xFFFF0000#32 ||| zext16 v := by
  have hones : (0xFFFF0000#32 : Word) = BitVec.allOnes 32 <<< 16 := by decide
  have hmsb : v.msb = true := by rw [BitVec.msb_eq_getLsbD_last]; exact h
  apply BitVec.eq_of_getLsbD_eq
  intro k hk
  rw [hones, sext16, zext16, BitVec.getLsbD_signExtend, BitVec.getLsbD_or, BitVec.getLsbD_shiftLeft,
    BitVec.getLsbD_allOnes, BitVec.getLsbD_setWidth]
  by_cases hlow : k < 16
  · simp [hk, hlow]
  · have hbeyond : k - 16 < 32 := by omega
    simp [hk, hlow, hmsb, hbeyond]

theorem sext11_getLsbD (v : BitVec 11) {k : Nat} (hk : k < 32) :
    (sext11 v).getLsbD k = v.getLsbD (min k 10) := by
  rw [sext11, BitVec.getLsbD_signExtend, BitVec.msb_eq_getLsbD_last]
  by_cases hlow : k < 11
  · simp [hk, hlow, show min k 10 = k by omega]
  · simp [hk, hlow, show min k 10 = 10 by omega]

/-! ## Byte order (R62) -/

/-- Byte `k` of a word is its bits `8k + 7 .. 8k`. -/
theorem wordBytes_getElem (v : Word) {k : Nat} (h : k < (wordBytes v).length) :
    (wordBytes v)[k] = v.extractLsb' (8 * k) 8 := by
  rw [wordBytes_length] at h
  interval_cases k <;> rfl

theorem wordBytes_map_toNat (v : Word) : (wordBytes v).map BitVec.toNat =
    [v.toNat % 2 ^ 8, v.toNat / 2 ^ 8 % 2 ^ 8, v.toNat / 2 ^ 16 % 2 ^ 8, v.toNat / 2 ^ 24] := by
  have htop : v.toNat / 2 ^ 24 % 2 ^ 8 = v.toNat / 2 ^ 24 := by have := v.isLt; omega
  simp only [wordBytes, List.map_cons, List.map_nil, toNat_extract_eq, Nat.pow_zero, Nat.div_one, htop]

theorem wordOfBytes_of_wordBytes {v : Word} {b0 b1 b2 b3 : Byte} (h : wordBytes v = [b0, b1, b2, b3]) :
    wordOfBytes b0 b1 b2 b3 = v := by
  simp only [wordBytes, List.cons.injEq, and_true] at h
  obtain ⟨rfl, rfl, rfl, rfl⟩ := h
  exact wordOfBytes_split v

/-! ## read32 and write32 (R63, R64, R66) -/

section
variable {addr v : Word} {s t : State}

theorem memRead_pastTop (h : 2 ^ 32 < addr.toNat + 4) : memRead addr s = .error .topOfMemory := by
  simp [memRead, (pastTop_iff addr).mpr h]

theorem memWrite_pastTop (h : 2 ^ 32 < addr.toNat + 4) : memWrite addr v s = .error .topOfMemory := by
  simp [memWrite, (pastTop_iff addr).mpr h]

/-- Whatever else a state holds, a read where its memory was just stored to gives the word. -/
theorem memRead_storeBytes {m : Memory} (hm : m.wf) (haddr : addr.toNat + 4 ≤ 2 ^ 32)
    (hmem : t.mem = storeBytes m addr.toNat (wordBytes v)) : memRead addr t = .ok (v, t) := by
  rw [memRead_inside haddr (by simp [hmem]), hmem, wordAt_storeBytes_self _ _ _ hm]

end

/-! ## Addresses and checked values (R159, R160) -/

section
variable {s : State} (base : Nat) (imm16 : BitVec 16) (off11 : BitVec 11)

theorem ldstAddr_eq : ldstAddr base imm16 s = readReg base s + ldstOffset imm16 s := rfl
theorem stpAddr_eq : stpAddr base off11 s = readReg base s + stpOffset off11 s := rfl

theorem ldstOffset_of_zext (h : s.params.offsetExt = .zext) : ldstOffset imm16 s = zext16 imm16 := by
  rw [ldstOffset, h, ext16]

theorem ldstOffset_of_sext (h : s.params.offsetExt = .sext) : ldstOffset imm16 s = sext16 imm16 := by
  rw [ldstOffset, h, ext16]

theorem stpOffset_of_zext (h : s.params.offsetExt = .zext) : stpOffset off11 s = zext11 off11 := by
  rw [stpOffset, h, ext11]

theorem stpOffset_of_sext (h : s.params.offsetExt = .sext) : stpOffset off11 s = sext11 off11 := by
  rw [stpOffset, h, ext11]

theorem ldstChecked_of_address (h : s.params.alignCheckLdst = .address) :
    ldstChecked base imm16 s = ldstAddr base imm16 s := by
  rw [ldstChecked, h, checkedValue]

theorem ldstChecked_of_offset (h : s.params.alignCheckLdst = .offset) :
    ldstChecked base imm16 s = ldstOffset imm16 s := by
  rw [ldstChecked, h, checkedValue]

theorem stpChecked_of_address (h : s.params.alignCheckStp = .address) :
    stpChecked base off11 s = stpAddr base off11 s := by
  rw [stpChecked, h, checkedValue]

theorem stpChecked_of_offset (h : s.params.alignCheckStp = .offset) :
    stpChecked base off11 s = stpOffset off11 s := by
  rw [stpChecked, h, checkedValue]

end

/-! ## The obligations -/

/-- Settles O41: below the top, write32 is one store of the word's four bytes. -/
theorem memWriteFollowsItsRule : Obligations.MemWriteFollowsItsRule := by
  intro addr v s
  refine ⟨fun htop => memWrite_pastTop (by omega), fun haddr hm => ?_⟩
  refine ⟨_, memWrite_below (by omega), ?size, fun k hk => ?stored, fun a ha _ => ?other, fun a hsize ha => ?gap⟩
  case size =>
    rw [storeBytes_size, wordBytes_length]
    split <;> omega
  case stored => exact (byteAt_storeBytes_inside _ _ _ _ hm hk).trans (wordBytes_getElem v hk)
  case other => exact byteAt_storeBytes_outside _ _ _ _ ha
  case gap => rw [byteAt_storeBytes_outside _ _ _ _ (.inl ha), byteAt_beyond _ _ hm hsize]

/-- Settles O42: after the write both the read and the fetch read the stored word inside the memory. -/
theorem nextFetchSeesTheStoredWord : Obligations.NextFetchSeesTheStoredWord := by
  intro addr v s t hm h
  obtain ⟨haddr, rfl⟩ := memWrite_ok h
  exact ⟨memRead_storeBytes hm haddr rfl, memRead_storeBytes hm haddr rfl⟩

/-- Settles O23: each parameter's choice, and an offset is its address less the base register. -/
theorem addressAndCheckFollowTheParameters : Obligations.AddressAndCheckFollowTheParameters := by
  intro base imm16 off11 s
  refine ⟨fun h => ?zext, fun h => ?sext, ldstChecked_of_address base imm16, fun h => ?ldst,
    stpChecked_of_address base off11, fun h => ?stp⟩
  case zext =>
    rw [ldstAddr_eq, stpAddr_eq, ldstOffset_of_zext imm16 h, stpOffset_of_zext off11 h]
    exact ⟨by rw [zext16_eq_ofNat], by rw [zext11_eq_ofNat]⟩
  case sext =>
    rw [ldstAddr_eq, stpAddr_eq, ldstOffset_of_sext imm16 h, stpOffset_of_sext off11 h]
    exact ⟨by rw [sext16_eq_ofInt], by rw [sext11_eq_ofInt]⟩
  case ldst => rw [ldstChecked_of_offset base imm16 h, ldstAddr_eq, add_sub_cancel_left]
  case stp => rw [stpChecked_of_offset base off11 h, stpAddr_eq, add_sub_cancel_left]

/-- Settles O38: the sign bit decides the upper half of `sext16` and the bits above bit 10 of `sext11`. -/
theorem extensionsFollowTheSignBit : Obligations.ExtensionsFollowTheSignBit := by
  refine ⟨fun v => ⟨fun h => ?_, fun h => ?_, zext16_toNat v⟩,
    fun v => ⟨fun k hk => sext11_getLsbD v hk, zext11_toNat v⟩⟩
  · rw [sext16_of_sign_set h, zext16_eq_ofNat]
  · rw [sext16_of_sign_clear h, zext16_eq_ofNat]

/-- Settles O39: each byte is a bit field of the word, and the four fields make the word. -/
theorem byteOrderIsLittleEndian : Obligations.ByteOrderIsLittleEndian := by
  intro v
  exact ⟨wordBytes_map_toNat v, fun _ _ _ _ h => wordOfBytes_of_wordBytes h⟩

/-- Settles O40: the three cases of read32, with the word's number read off its bytes. -/
theorem memReadFollowsItsRule : Obligations.MemReadFollowsItsRule := by
  intro addr s
  refine ⟨fun htop => memRead_pastTop (by omega), fun haddr hsize => memRead_outside (by omega) hsize,
    fun haddr hsize => ?_⟩
  exact ⟨_, memRead_inside (by omega) hsize, wordAt_toNat s.mem addr.toNat⟩

end Sys2Proof.Proofs
end

