-- ==== Sys2Proof/Proofs/LoadStore.lean ====
section
/-! PROOF. LD, ST and STP (spec/43_loadstore.md R150 to R161): which words are theirs, what they load and store at
their address, and that they stop before any access when misaligned or past the top. -/

namespace Sys2Proof.Proofs

open Sys2Proof.Machine Sys2Proof.Laws

theorem fieldOff11_eq_ofNat (w : Word) : fieldOff11 w = BitVec.ofNat 11 w.toNat := by
  apply BitVec.eq_of_toNat_eq
  simp [fieldOff11_toNat]

/-! ## With the register check passed, one equation each -/

section
variable {a b c : Nat} (s : State)

theorem exec_ld (imm16 : BitVec 16) (ha : a < 32) (hb : b < 32) :
    exec (.ld a b imm16) s = withAligned (ldstChecked a imm16 s) s fun s =>
      finishLoad b (memRead (ldstAddr a imm16 s) s) := by
  rw [exec, execLd]
  exact withRegs_ok (by simp [ha, hb])

theorem exec_st (imm16 : BitVec 16) (ha : a < 32) (hb : b < 32) :
    exec (.st a b imm16) s = withAligned (ldstChecked a imm16 s) s fun s =>
      finishStore (memWrite (ldstAddr a imm16 s) (readReg b s) s) := by
  rw [exec, execSt]
  exact withRegs_ok (by simp [ha, hb])

theorem exec_stp (off11 : BitVec 11) (ha : a < 32) (hb : b < 32) (hc : c < 32) :
    exec (.stp a b c off11) s = withAligned (stpChecked a off11 s) s fun s =>
      finishStore (storePair (stpAddr a off11 s) (readReg b s) (readReg c s) s) := by
  rw [exec, execStp]
  exact withRegs_ok (by simp [ha, hb, hc])

end

/-! ## The alignment check, on numbers (R160) -/

section
variable {s : State} {v : Word} {k : State → Host.Outcome State Fault Refusal}

theorem withAligned_of_mod_eq_zero (h : v.toNat % 4 = 0) : withAligned v s k = k s :=
  withAligned_ok ((aligned4_iff v).mpr h)

theorem withAligned_of_mod_ne_zero (h : v.toNat % 4 ≠ 0) :
    withAligned v s k = .next (takeHalt .misaligned (some (.misaligned s.pc v)) s) :=
  withAligned_bad (by rwa [← Bool.not_eq_true, aligned4_iff])

/-- A misaligned access of any kind halts before the access, and does nothing else. -/
theorem withAligned_onlyHalts (h : v.toNat % 4 ≠ 0) :
    ∃ t, withAligned v s k = .next t ∧ OnlyHalts .misaligned [.misaligned s.pc v] s t :=
  ⟨_, withAligned_of_mod_ne_zero h, takeHalt_onlyHalts .misaligned (some _)⟩

end

/-! ## The ends of a load and of a store -/

section
variable {s : State} {addr v v1 v2 : Word} {rt : Nat}

theorem finishLoad_inside (haddr : addr.toNat + 4 ≤ 2 ^ 32) (hsize : addr.toNat + 4 ≤ s.mem.size) :
    finishLoad rt (memRead addr s) = .next (advance (writeReg rt (wordAt s.mem addr.toNat) s)) := by
  rw [memRead_inside haddr hsize, finishLoad]

theorem finishLoad_outside (haddr : addr.toNat + 4 ≤ 2 ^ 32) (hsize : s.mem.size < addr.toNat + 4) :
    finishLoad rt (memRead addr s) = .next (advance (writeReg rt 0#32 (report (.oorRead addr) s))) := by
  rw [memRead_outside haddr hsize, finishLoad]

theorem finishLoad_pastTop (h : 2 ^ 32 < addr.toNat + 4) :
    finishLoad rt (memRead addr s) = .refused .topOfMemory := by
  rw [memRead_pastTop h, finishLoad]

theorem finishStore_below (h : addr.toNat + 4 ≤ 2 ^ 32) :
    finishStore (memWrite addr v s) =
      .next (advance { s with mem := storeBytes s.mem addr.toNat (wordBytes v) }) := by
  rw [memWrite_below h, finishStore]

theorem finishStore_pastTop (h : 2 ^ 32 < addr.toNat + 4) :
    finishStore (memWrite addr v s) = .refused .topOfMemory := by
  rw [memWrite_pastTop h, finishStore]

theorem storePair_pastTop (h : 2 ^ 32 < addr.toNat + 8) :
    storePair addr v1 v2 s = .error .topOfMemory := by
  simp [storePair, (pairPastTop_iff addr).mpr h]

theorem finishStorePair_below (h : addr.toNat + 8 ≤ 2 ^ 32) :
    finishStore (storePair addr v1 v2 s) =
      .next (advance { s with mem := storeBytes s.mem addr.toNat (wordBytes v1 ++ wordBytes v2) }) := by
  rw [storePair_below h, finishStore]

theorem finishStorePair_pastTop (h : 2 ^ 32 < addr.toNat + 8) :
    finishStore (storePair addr v1 v2 s) = .refused .topOfMemory := by
  rw [storePair_pastTop h, finishStore]

end

/-! ## The obligations -/

/-- Settles O24: the row's opcode is LD's, and LD is its alignment check and then the three cases of read32. -/
theorem ldLoadsTheWordAtItsAddress : Obligations.LdLoadsTheWordAtItsAddress := by
  refine ⟨fun w hw => ?row, fun base rt imm16 s hb ht => ?_⟩
  case row =>
    rw [decodeWord_of_op_ld (fieldOp_of_row hw), fieldA_eq, fieldB_eq, fieldImm16_eq_ofNat]
    rfl
  rw [exec_ld s imm16 hb ht]
  refine ⟨fun hal haddr hsize => ?inside, fun hal haddr hsize => ?outside, fun hal htop => ?pastTop,
    fun hmis => withAligned_onlyHalts hmis⟩
  case inside =>
    rw [withAligned_of_mod_eq_zero hal, finishLoad_inside haddr hsize]
    refine ⟨_, rfl, ?_, advance_writeReg_onlyWrites rt _⟩
    rw [readReg_advance, readReg_writeReg_self s rt _ ht, wordAt_toNat]
  case outside =>
    rw [withAligned_of_mod_eq_zero hal, finishLoad_outside haddr hsize]
    refine ⟨_, rfl, ?_, advance_writeReg_onlyWrites rt _⟩
    rw [readReg_advance, readReg_writeReg_self _ rt _ ht]
  case pastTop => rw [withAligned_of_mod_eq_zero hal, finishLoad_pastTop htop]

/-- Settles O25: the row's opcode is ST's, and ST is its alignment check and then the two cases of write32. -/
theorem stStoresTheWordAtItsAddress : Obligations.StStoresTheWordAtItsAddress := by
  refine ⟨fun w hw => ?row, fun base rt imm16 s hb ht => ?_⟩
  case row =>
    rw [decodeWord_of_op_st (fieldOp_of_row hw), fieldA_eq, fieldB_eq, fieldImm16_eq_ofNat]
    rfl
  rw [exec_st s imm16 hb ht]
  refine ⟨fun hm hal haddr => ?stores, fun hal htop => ?pastTop, fun hmis => withAligned_onlyHalts hmis⟩
  case stores =>
    rw [withAligned_of_mod_eq_zero hal, finishStore_below haddr]
    exact ⟨_, rfl, advance_storeBytes_onlyStores hm⟩
  case pastTop => rw [withAligned_of_mod_eq_zero hal, finishStore_pastTop htop]

/-- Settles O26: the row's opcode is STP's, and below the top the pair of writes is one store of eight bytes. -/
theorem stpStoresBothWords : Obligations.StpStoresBothWords := by
  refine ⟨fun w hw => ?row, fun base rt1 rt2 off11 s hb h1 h2 => ?_⟩
  case row =>
    rw [decodeWord_of_op_stp (fieldOp_of_row hw), fieldA_eq, fieldB_eq, fieldC_eq, fieldOff11_eq_ofNat]
    rfl
  rw [exec_stp s off11 hb h1 h2]
  refine ⟨fun hm hal haddr => ?stores, fun hal htop => ?pastTop, fun hmis => withAligned_onlyHalts hmis⟩
  case stores =>
    rw [withAligned_of_mod_eq_zero hal, finishStorePair_below haddr]
    exact ⟨_, rfl, advance_storeBytes_onlyStores hm⟩
  case pastTop => rw [withAligned_of_mod_eq_zero hal, finishStorePair_pastTop htop]

end Sys2Proof.Proofs
end

