-- ==== Sys2Proof/Proofs/InstructionOutcomes.lean ====
section
/-! PROOF. What any one instruction can end in (spec/10_state.md R23, R33): the register check first, then one of a
short list of outcomes; from it which registers an instruction writes and reads. -/

namespace Sys2Proof.Proofs

open Sys2Proof.Machine Sys2Proof.Laws

/-! ## The register check comes first (R33) -/

/-- What an instruction does once its register operands have passed the check. -/
def handle : Instr → State → Host.Outcome State Fault Refusal
  | .j index, s => .next (commitPc (jumpTarget s.pc index) s)
  | .syscall code, s => execSyscall code s
  | .stp base rt1 rt2 off11, s => withAligned (stpChecked base off11 s) s fun s =>
      finishStore (storePair (stpAddr base off11 s) (readReg rt1 s) (readReg rt2 s) s)
  | .rori rd rs imm5, s => finishAlu rd (rotateRight (readReg rs s) imm5.toNat) s
  | .slti rs rt imm16, s => finishAlu rt (setLess (readReg rs s) (sext16 imm16)) s
  | .st base rt imm16, s => withAligned (ldstChecked base imm16 s) s fun s =>
      finishStore (memWrite (ldstAddr base imm16 s) (readReg rt s) s)
  | .bdep rd rs1 rs2, s => finishAlu rd (deposit (readReg rs1 s) (readReg rs2 s)) s
  | .cls rd rs, s => finishAlu rd (BitVec.ofNat 32 (countLeadingSign (readReg rs s))) s
  | .add rs rt rd, s => finishAlu rd (readReg rs s + readReg rt s) s
  | .bne rs rt imm16, s => .next (branch (readReg rs s != readReg rt s) imm16 s)
  | .beq rs rt imm16, s => .next (branch (readReg rs s == readReg rt s) imm16 s)
  | .ld base rt imm16, s => withAligned (ldstChecked base imm16 s) s fun s =>
      finishLoad rt (memRead (ldstAddr base imm16 s) s)
  | .and rs rt rd, s => finishAlu rd (readReg rs s &&& readReg rt s) s
  | .ssat rd rs imm5, s => finishAlu rd (saturate (readReg rs s) imm5.toNat) s

theorem exec_eq_withRegs (i : Instr) (s : State) : exec i s = withRegs i.registers s (handle i) := by
  cases i <;> rfl

theorem exec_of_wellFormed {i : Instr} (h : WellFormed i) (s : State) : exec i s = handle i s := by
  rw [exec_eq_withRegs, withRegs_ok (wellFormed_iff.mp h)]

/-- An instruction that is not well formed halts on one of its bad indices. -/
theorem exec_of_not_wellFormed {i : Instr} (h : ¬ WellFormed i) (s : State) :
    ∃ r ∈ i.registers, ¬ r < 32 ∧ exec i s = .next (takeHalt .badRegister (some (.badRegister s.pc r)) s) := by
  rcases withRegs_cases i.registers s (handle i) with ⟨hok, -⟩ | ⟨r, hr, hbad, heq⟩
  · exact absurd (wellFormed_iff.mpr hok) h
  · exact ⟨r, hr, hbad, by rw [exec_eq_withRegs, heq]⟩

/-! ## Everything a handler can end in -/

/-- The two instructions that store. -/
def IsStore (i : Instr) : Prop :=
  (∃ base rt imm16, i = .st base rt imm16) ∨ ∃ base rt1 rt2 off11, i = .stp base rt1 rt2 off11

/-- The instruction's access would pass the top of the address space (R66, R150). -/
def AccessPastTop (i : Instr) (s : State) : Prop :=
  (∃ base rt imm16, (i = .ld base rt imm16 ∨ i = .st base rt imm16) ∧
    2 ^ 32 < (ldstAddr base imm16 s).toNat + 4) ∨
  (∃ base rt1 rt2 off11, i = .stp base rt1 rt2 off11 ∧ 2 ^ 32 < (stpAddr base off11 s).toNat + 8)

/-- The outcomes of a handler, sharper than `Effect`: with the event, the halt reason, the kind of instruction that
can end so, and the refusals. -/
inductive Handled (i : Instr) (s : State) : Host.Outcome State Fault Refusal → Prop where
  | moved (a : Word) : Handled i s (.next (commitPc a s))
  | wrote (d : Nat) (v : Word) (hd : d ∈ writesRegs i) : Handled i s (.next (advance (writeReg d v s)))
  | loadedOutside (d : Nat) (addr : Word) (hd : d ∈ writesRegs i) :
      Handled i s (.next (advance (writeReg d 0#32 (report (.oorRead addr) s))))
  | stored (addr : Word) (bs : List Byte) (hi : IsStore i) (haddr : addr.toNat + bs.length ≤ 2 ^ 32) :
      Handled i s (.next (advance { s with mem := storeBytes s.mem addr.toNat bs }))
  | exited : Handled i s (.next (takeHalt .syscallExit none s))
  | emitted : Handled i s (.next (advance (emit (readReg 0 s) s)))
  | reported (code : BitVec 18) : Handled i s (.next (advance (report (.unhandledSyscall s.pc code) s)))
  | misaligned (v : Word) : Handled i s (.next (takeHalt .misaligned (some (.misaligned s.pc v)) s))
  | refused (h : AccessPastTop i s) : Handled i s (.refused .topOfMemory)

section
variable {i : Instr} {s t : State} {addr v v1 v2 : Word} {d : Nat}
  {k : State → Host.Outcome State Fault Refusal}

theorem handled_finishAlu (hd : d ∈ writesRegs i) : Handled i s (finishAlu d v s) := .wrote d v hd

theorem handled_branch (taken : Bool) (imm16 : BitVec 16) : Handled i s (.next (branch taken imm16 s)) := by
  rw [branch_eq_commitPc]
  exact .moved _

theorem handled_syscall (code : BitVec 18) : Handled i s (execSyscall code s) := by
  unfold execSyscall
  split
  · exact .exited
  · split
    · exact .emitted
    · exact .reported code

theorem handled_withAligned (h : Handled i s (k s)) : Handled i s (withAligned v s k) := by
  by_cases hal : v.toNat % 4 = 0
  · rwa [withAligned_of_mod_eq_zero hal]
  · rw [withAligned_of_mod_ne_zero hal]
    exact .misaligned v

theorem handled_load (hd : d ∈ writesRegs i) (hpast : 2 ^ 32 < addr.toNat + 4 → AccessPastTop i s) :
    Handled i s (finishLoad d (memRead addr s)) := by
  by_cases htop : 2 ^ 32 < addr.toNat + 4
  · rw [finishLoad_pastTop htop]
    exact .refused (hpast htop)
  · by_cases hsize : s.mem.size < addr.toNat + 4
    · rw [finishLoad_outside (by omega) hsize]
      exact .loadedOutside d addr hd
    · rw [finishLoad_inside (by omega) (by omega)]
      exact .wrote d _ hd

theorem handled_store (hi : IsStore i) (hpast : 2 ^ 32 < addr.toNat + 4 → AccessPastTop i s) :
    Handled i s (finishStore (memWrite addr v s)) := by
  by_cases htop : 2 ^ 32 < addr.toNat + 4
  · rw [finishStore_pastTop htop]
    exact .refused (hpast htop)
  · rw [finishStore_below (by omega)]
    exact .stored addr _ hi (by rw [wordBytes_length]; omega)

theorem handled_storePair (hi : IsStore i) (hpast : 2 ^ 32 < addr.toNat + 8 → AccessPastTop i s) :
    Handled i s (finishStore (storePair addr v1 v2 s)) := by
  by_cases htop : 2 ^ 32 < addr.toNat + 8
  · rw [finishStorePair_pastTop htop]
    exact .refused (hpast htop)
  · rw [finishStorePair_below (by omega)]
    exact .stored addr _ hi (by rw [List.length_append, wordBytes_length, wordBytes_length]; omega)

theorem handle_handled (i : Instr) (s : State) : Handled i s (handle i s) := by
  cases i with
  | j => exact .moved _
  | syscall code => exact handled_syscall code
  | stp base rt1 rt2 off11 =>
    rw [handle]
    refine handled_withAligned ?_
    exact handled_storePair (.inr ⟨_, _, _, _, rfl⟩) fun h => .inr ⟨_, _, _, _, rfl, h⟩
  | st base rt imm16 =>
    rw [handle]
    refine handled_withAligned ?_
    exact handled_store (.inl ⟨_, _, _, rfl⟩) fun h => .inl ⟨_, _, _, .inr rfl, h⟩
  | ld base rt imm16 =>
    rw [handle]
    refine handled_withAligned ?_
    exact handled_load (List.mem_singleton_self _) fun h => .inl ⟨_, _, _, .inl rfl, h⟩
  | bne => exact handled_branch _ _
  | beq => exact handled_branch _ _
  | rori => exact handled_finishAlu (List.mem_singleton_self _)
  | slti => exact handled_finishAlu (List.mem_singleton_self _)
  | bdep => exact handled_finishAlu (List.mem_singleton_self _)
  | cls => exact handled_finishAlu (List.mem_singleton_self _)
  | add => exact handled_finishAlu (List.mem_singleton_self _)
  | and => exact handled_finishAlu (List.mem_singleton_self _)
  | ssat => exact handled_finishAlu (List.mem_singleton_self _)

/-! ## The registers an instruction writes (R23) -/

theorem handled_writes (h : Handled i s (.next t)) : SameRegsBut (writesRegs i) s t := by
  intro q hq
  cases h with
  | wrote d v hd => rw [readReg_advance, readReg_writeReg_ne _ _ _ _ (ne_of_mem_of_not_mem hd hq).symm]
  | loadedOutside d addr hd =>
    rw [readReg_advance, readReg_writeReg_ne _ _ _ _ (ne_of_mem_of_not_mem hd hq).symm, readReg_report]
  | stored => exact readReg_congr (by simp) q
  | moved => exact readReg_commitPc ..
  | exited => exact readReg_takeHalt ..
  | misaligned => exact readReg_takeHalt ..
  | emitted => rw [readReg_advance, readReg_emit]
  | reported => rw [readReg_advance, readReg_report]

end

/-! ## A register write made before an operation is the same write made after it -/

section
variable (s : State) (r : Nat) (v : Word)

theorem writeReg_writeReg_self (w : Word) : writeReg r w (writeReg r v s) = writeReg r w s := by
  by_cases hr : r < 32
  · simp [writeReg_eq _ r _ hr]
  · simp [writeReg_out_of_range _ r _ hr]

theorem writeReg_comm {d : Nat} (w : Word) (h : d ≠ r) :
    writeReg d w (writeReg r v s) = writeReg r v (writeReg d w s) := by
  by_cases hr : r < 32
  · by_cases hd : d < 32
    · simp [writeReg_eq _ r _ hr, writeReg_eq _ d _ hd, Vector.set_comm _ _ h]
    · simp [writeReg_out_of_range _ d _ hd]
  · simp [writeReg_out_of_range _ r _ hr]

theorem report_writeReg (d : Diag) : report d (writeReg r v s) = writeReg r v (report d s) := by
  by_cases hr : r < 32
  · simp [writeReg_eq _ r _ hr, report]
  · simp [writeReg_out_of_range _ r _ hr]

theorem emit_writeReg (w : Word) : emit w (writeReg r v s) = writeReg r v (emit w s) := by
  by_cases hr : r < 32
  · simp [writeReg_eq _ r _ hr, emit]
  · simp [writeReg_out_of_range _ r _ hr]

theorem setHalted_writeReg (c : HaltReason) : setHalted c (writeReg r v s) = writeReg r v (setHalted c s) := by
  by_cases hr : r < 32
  · simp [writeReg_eq _ r _ hr, setHalted]
  · simp [writeReg_out_of_range _ r _ hr]

theorem commitPc_writeReg (a : Word) : commitPc a (writeReg r v s) = writeReg r v (commitPc a s) := by
  by_cases hr : r < 32
  · simp only [writeReg_eq _ r _ hr, commitPc]
    split <;> rfl
  · simp [writeReg_out_of_range _ r _ hr]

theorem setMem_writeReg (m : Memory) :
    { writeReg r v s with mem := m } = writeReg r v { s with mem := m } := by
  by_cases hr : r < 32
  · simp [writeReg_eq _ r _ hr]
  · simp [writeReg_out_of_range _ r _ hr]

theorem advance_writeReg : advance (writeReg r v s) = writeReg r v (advance s) := by
  rw [advance, writeReg_pc, commitPc_writeReg, advance]

theorem takeHalt_writeReg (c : HaltReason) (d : Option Diag) :
    takeHalt c d (writeReg r v s) = writeReg r v (takeHalt c d s) := by
  cases d <;> simp only [takeHalt, reportIf, report_writeReg, setHalted_writeReg, advance_writeReg]

theorem branch_writeReg (taken : Bool) (imm16 : BitVec 16) :
    branch taken imm16 (writeReg r v s) = writeReg r v (branch taken imm16 s) := by
  rw [branch_eq_commitPc, branch_eq_commitPc, writeReg_pc, commitPc_writeReg]

end

/-! ## The registers an instruction reads (R23)

Two runs from states that differ in register `r` only: the second run's outcome is the first's, with the write of
`r` made again in its next state unless the instruction wrote `r` itself. -/

/-- How the outcome `o'` with another value in register `r` compares with the outcome `o`. -/
structure SameButReg (r : Nat) (v : Word) (ws : List Nat) (o o' : Host.Outcome State Fault Refusal) : Prop where
  refused : ∀ e, o = .refused e → o' = .refused e
  next : ∀ t, o = .next t → o' = .next t ∨ (o' = .next (writeReg r v t) ∧ (t.halted = true ∨ r ∉ ws))

section
variable {s t : State} {r d : Nat} {v : Word} {ws : List Nat}

/-- The write of `r` commutes with an operation that halts or does not write `r`. -/
theorem sameButReg_of_comm {t' : State} (h : t' = writeReg r v t) (hr : t.halted = true ∨ r ∉ ws) :
    SameButReg r v ws (.next t) (.next t') := by
  subst h
  refine ⟨nofun, fun u hu => .inr ?_⟩
  cases hu
  exact ⟨rfl, hr⟩

/-- The operation writes `r` itself, over either value. -/
theorem sameButReg_of_eq {t' : State} (h : t' = t) : SameButReg r v ws (.next t) (.next t') :=
  ⟨nofun, fun _ hu => .inl (h ▸ hu)⟩

theorem sameButReg_refused (e : Refusal) : SameButReg r v ws (.refused e) (.refused e) :=
  ⟨fun _ he => he, nofun⟩

/-- Writing a destination, which may be `r`. -/
theorem sameButReg_advance_writeReg (w : Word) :
    SameButReg r v [d] (.next (advance (writeReg d w s))) (.next (advance (writeReg d w (writeReg r v s)))) := by
  by_cases hd : d = r
  · subst hd
    exact sameButReg_of_eq (by rw [writeReg_writeReg_self])
  · exact sameButReg_of_comm (by rw [writeReg_comm _ _ _ _ hd, advance_writeReg])
      (.inr (by simpa using Ne.symm hd))

theorem sameButReg_finishAlu (w : Word) :
    SameButReg r v [d] (finishAlu d w s) (finishAlu d w (writeReg r v s)) :=
  sameButReg_advance_writeReg w

theorem sameButReg_branch (taken : Bool) (imm16 : BitVec 16) :
    SameButReg r v [] (.next (branch taken imm16 s)) (.next (branch taken imm16 (writeReg r v s))) :=
  sameButReg_of_comm (branch_writeReg ..) (.inr List.not_mem_nil)

theorem sameButReg_withAligned {w : Word} {k k' : State → Host.Outcome State Fault Refusal}
    (h : SameButReg r v ws (k s) (k' (writeReg r v s))) :
    SameButReg r v ws (withAligned w s k) (withAligned w (writeReg r v s) k') := by
  by_cases hal : w.toNat % 4 = 0
  · rwa [withAligned_of_mod_eq_zero hal, withAligned_of_mod_eq_zero hal]
  · rw [withAligned_of_mod_ne_zero hal, withAligned_of_mod_ne_zero hal, writeReg_pc]
    exact sameButReg_of_comm (takeHalt_writeReg ..) (.inl (takeHalt_halted ..))

theorem sameButReg_load (addr : Word) :
    SameButReg r v [d] (finishLoad d (memRead addr s)) (finishLoad d (memRead addr (writeReg r v s))) := by
  by_cases htop : 2 ^ 32 < addr.toNat + 4
  · rw [finishLoad_pastTop htop, finishLoad_pastTop htop]
    exact sameButReg_refused _
  · by_cases hsize : s.mem.size < addr.toNat + 4
    · rw [finishLoad_outside (by omega) hsize, finishLoad_outside (by omega) (by rwa [writeReg_mem]),
        report_writeReg]
      exact sameButReg_advance_writeReg _
    · rw [finishLoad_inside (by omega) (by omega), finishLoad_inside (by omega) (by rw [writeReg_mem]; omega),
        writeReg_mem]
      exact sameButReg_advance_writeReg _

theorem sameButReg_advance_setMem (m : Memory) :
    SameButReg r v [] (.next (advance { s with mem := m })) (.next (advance { writeReg r v s with mem := m })) :=
  sameButReg_of_comm (by rw [setMem_writeReg, advance_writeReg]) (.inr List.not_mem_nil)

theorem sameButReg_store (addr w : Word) :
    SameButReg r v [] (finishStore (memWrite addr w s)) (finishStore (memWrite addr w (writeReg r v s))) := by
  by_cases htop : 2 ^ 32 < addr.toNat + 4
  · rw [finishStore_pastTop htop, finishStore_pastTop htop]
    exact sameButReg_refused _
  · rw [finishStore_below (by omega), finishStore_below (by omega), writeReg_mem]
    exact sameButReg_advance_setMem _

theorem sameButReg_storePair (addr w1 w2 : Word) :
    SameButReg r v [] (finishStore (storePair addr w1 w2 s))
      (finishStore (storePair addr w1 w2 (writeReg r v s))) := by
  by_cases htop : 2 ^ 32 < addr.toNat + 8
  · rw [finishStorePair_pastTop htop, finishStorePair_pastTop htop]
    exact sameButReg_refused _
  · rw [finishStorePair_below (by omega), finishStorePair_below (by omega), writeReg_mem]
    exact sameButReg_advance_setMem _

theorem sameButReg_syscall (code : BitVec 18) (h : r ∉ readsRegs (.syscall code)) :
    SameButReg r v [] (execSyscall code s) (execSyscall code (writeReg r v s)) := by
  unfold execSyscall
  split
  · exact sameButReg_of_comm (takeHalt_writeReg ..) (.inl (takeHalt_halted ..))
  · split
    case isTrue hone =>
      have hr : 0 ≠ r := by simpa [readsRegs, hone, eq_comm] using h
      rw [readReg_writeReg_ne _ _ _ _ hr]
      exact sameButReg_of_comm (by rw [emit_writeReg, advance_writeReg]) (.inr List.not_mem_nil)
    case isFalse =>
      rw [writeReg_pc]
      exact sameButReg_of_comm (by rw [report_writeReg, advance_writeReg]) (.inr List.not_mem_nil)

theorem ldstOffset_writeReg (imm16 : BitVec 16) : ldstOffset imm16 (writeReg r v s) = ldstOffset imm16 s := by
  rw [ldstOffset, writeReg_params, ldstOffset]

theorem stpOffset_writeReg (off11 : BitVec 11) : stpOffset off11 (writeReg r v s) = stpOffset off11 s := by
  rw [stpOffset, writeReg_params, stpOffset]

theorem ldstAddr_writeReg {base : Nat} (imm16 : BitVec 16) (h : base ≠ r) :
    ldstAddr base imm16 (writeReg r v s) = ldstAddr base imm16 s := by
  rw [ldstAddr_eq, ldstAddr_eq, readReg_writeReg_ne _ _ _ _ h, ldstOffset_writeReg]

theorem stpAddr_writeReg {base : Nat} (off11 : BitVec 11) (h : base ≠ r) :
    stpAddr base off11 (writeReg r v s) = stpAddr base off11 s := by
  rw [stpAddr_eq, stpAddr_eq, readReg_writeReg_ne _ _ _ _ h, stpOffset_writeReg]

theorem ldstChecked_writeReg {base : Nat} (imm16 : BitVec 16) (h : base ≠ r) :
    ldstChecked base imm16 (writeReg r v s) = ldstChecked base imm16 s := by
  rw [ldstChecked, writeReg_params, ldstAddr_writeReg imm16 h, ldstOffset_writeReg, ldstChecked]

theorem stpChecked_writeReg {base : Nat} (off11 : BitVec 11) (h : base ≠ r) :
    stpChecked base off11 (writeReg r v s) = stpChecked base off11 s := by
  rw [stpChecked, writeReg_params, stpAddr_writeReg off11 h, stpOffset_writeReg, stpChecked]

theorem handle_writeReg (i : Instr) (h : r ∉ readsRegs i) :
    SameButReg r v (writesRegs i) (handle i s) (handle i (writeReg r v s)) := by
  have hread : ∀ q ∈ readsRegs i, q ≠ r := fun q hq => ne_of_mem_of_not_mem hq h
  cases i with
  | j index =>
    simp only [handle, writeReg_pc]
    exact sameButReg_of_comm (commitPc_writeReg ..) (.inr List.not_mem_nil)
  | syscall code => exact sameButReg_syscall code h
  | stp base rt1 rt2 off11 =>
    obtain ⟨hb, h1, h2⟩ : base ≠ r ∧ rt1 ≠ r ∧ rt2 ≠ r := by simpa [readsRegs] using hread
    simp only [handle, stpChecked_writeReg off11 hb]
    refine sameButReg_withAligned ?_
    rw [stpAddr_writeReg off11 hb, readReg_writeReg_ne _ _ _ _ h1, readReg_writeReg_ne _ _ _ _ h2]
    exact sameButReg_storePair ..
  | st base rt imm16 =>
    obtain ⟨hb, ht⟩ : base ≠ r ∧ rt ≠ r := by simpa [readsRegs] using hread
    simp only [handle, ldstChecked_writeReg imm16 hb]
    refine sameButReg_withAligned ?_
    rw [ldstAddr_writeReg imm16 hb, readReg_writeReg_ne _ _ _ _ ht]
    exact sameButReg_store ..
  | ld base rt imm16 =>
    have hb : base ≠ r := hread base (List.mem_singleton_self _)
    simp only [handle, ldstChecked_writeReg imm16 hb]
    refine sameButReg_withAligned ?_
    rw [ldstAddr_writeReg imm16 hb]
    exact sameButReg_load _
  | bne rs rt imm16 =>
    obtain ⟨hs, ht⟩ : rs ≠ r ∧ rt ≠ r := by simpa [readsRegs] using hread
    simp only [handle, readReg_writeReg_ne _ _ _ _ hs, readReg_writeReg_ne _ _ _ _ ht]
    exact sameButReg_branch ..
  | beq rs rt imm16 =>
    obtain ⟨hs, ht⟩ : rs ≠ r ∧ rt ≠ r := by simpa [readsRegs] using hread
    simp only [handle, readReg_writeReg_ne _ _ _ _ hs, readReg_writeReg_ne _ _ _ _ ht]
    exact sameButReg_branch ..
  | bdep rd rs1 rs2 =>
    obtain ⟨h1, h2⟩ : rs1 ≠ r ∧ rs2 ≠ r := by simpa [readsRegs] using hread
    simp only [handle, readReg_writeReg_ne _ _ _ _ h1, readReg_writeReg_ne _ _ _ _ h2]
    exact sameButReg_finishAlu _
  | add rs rt rd =>
    obtain ⟨hs, ht⟩ : rs ≠ r ∧ rt ≠ r := by simpa [readsRegs] using hread
    simp only [handle, readReg_writeReg_ne _ _ _ _ hs, readReg_writeReg_ne _ _ _ _ ht]
    exact sameButReg_finishAlu _
  | and rs rt rd =>
    obtain ⟨hs, ht⟩ : rs ≠ r ∧ rt ≠ r := by simpa [readsRegs] using hread
    simp only [handle, readReg_writeReg_ne _ _ _ _ hs, readReg_writeReg_ne _ _ _ _ ht]
    exact sameButReg_finishAlu _
  | rori rd rs imm5 =>
    simp only [handle, readReg_writeReg_ne _ _ _ _ (hread rs (List.mem_singleton_self _))]
    exact sameButReg_finishAlu _
  | slti rs rt imm16 =>
    simp only [handle, readReg_writeReg_ne _ _ _ _ (hread rs (List.mem_singleton_self _))]
    exact sameButReg_finishAlu _
  | cls rd rs =>
    simp only [handle, readReg_writeReg_ne _ _ _ _ (hread rs (List.mem_singleton_self _))]
    exact sameButReg_finishAlu _
  | ssat rd rs imm5 =>
    simp only [handle, readReg_writeReg_ne _ _ _ _ (hread rs (List.mem_singleton_self _))]
    exact sameButReg_finishAlu _

end

/-! ## The obligations -/

/-- Settles O15: a well-formed instruction ends in a listed outcome, and any other halts. -/
theorem instructionsWriteOnlyTheListedRegisters : Obligations.InstructionsWriteOnlyTheListedRegisters := by
  intro i s t h
  by_cases hwf : WellFormed i
  · rw [exec_of_wellFormed hwf] at h
    exact handled_writes (h ▸ handle_handled i s)
  · obtain ⟨r, -, -, heq⟩ := exec_of_not_wellFormed hwf s
    rw [heq] at h
    cases h
    exact fun q _ => readReg_takeHalt ..

/-- Settles O16: with another value in an unread register the handler ends in the same outcome, but for that
register where the handler did not write it. -/
theorem instructionsReadOnlyTheListedRegisters : Obligations.InstructionsReadOnlyTheListedRegisters := by
  intro i s r v hwf _ hr
  rw [exec_of_wellFormed hwf, exec_of_wellFormed hwf]
  obtain ⟨hrefused, hnext⟩ := handle_writeReg (s := s) (v := v) i hr
  refine ⟨hrefused, fun t ht => ?_⟩
  rcases hnext t ht with heq | ⟨heq, hkept⟩
  · exact ⟨t, heq, rfl, rfl, rfl, rfl, rfl, fun _ _ => rfl, fun _ _ => rfl⟩
  · refine ⟨_, heq, by simp, by simp, by simp, by simp, by simp, fun q hq => readReg_writeReg_ne _ _ _ _ hq, ?_⟩
    intro hrun hwrites
    rcases hkept with hhalt | hnot
    · rw [hrun] at hhalt
      cases hhalt
    · exact absurd hwrites hnot

/-- Settles O17: the register check is the first thing an instruction does, and its failure is a halt. -/
theorem badRegisterIndexHalts : Obligations.BadRegisterIndexHalts := by
  intro i s hwf
  obtain ⟨r, hr, hbad, heq⟩ := exec_of_not_wellFormed hwf s
  exact ⟨r, hr, hbad, _, heq, takeHalt_onlyHalts .badRegister (some _)⟩

end Sys2Proof.Proofs
end

