-- ==== Sys2Proof/Proofs/ControlUnit.lean ====
section
/-! PROOF. One step of the core (spec/10_state.md R31): everything a step can end in, said once, and from it what
every step keeps, which events and halts it makes, and where it is refused. -/

namespace Sys2Proof.Proofs

open Sys2Proof.Machine Sys2Proof.Laws

/-! ## The step forward, one equation per result of the fetch (R70) -/

section
variable {s t : State}

theorem fetch_inside (hpc : s.pc.toNat + 4 ≤ 2 ^ 32) (hsize : s.pc.toNat + 4 ≤ s.mem.size) :
    fetch s = .ok (wordAt s.mem s.pc.toNat, s) := memRead_inside hpc hsize

/-- Out of range the fetch reads the zero word, which is in neither table. -/
theorem step_fetchOutside (hs : Running s) (hpc : s.pc.toNat + 4 ≤ 2 ^ 32)
    (hsize : s.mem.size < s.pc.toNat + 4) :
    step s = .next (takeHalt .unknownFunct (some (.unknownFunct s.pc 0#32 0#6)) (report (.oorRead s.pc) s)) :=
  step_of_unknown hs.1 hs.2 (memRead_outside hpc hsize) decodeWord_zero

/-- Inside the memory the zero word halts with its one diagnostic. -/
theorem step_of_zeroWord (hs : Running s) (hpc : s.pc.toNat + 4 ≤ 2 ^ 32)
    (hsize : s.pc.toNat + 4 ≤ s.mem.size) (hword : wordAt s.mem s.pc.toNat = 0#32) :
    step s = .next (takeHalt .unknownFunct (some (.unknownFunct s.pc 0#32 0#6)) s) :=
  step_of_unknown hs.1 hs.2 (hword ▸ fetch_inside hpc hsize) decodeWord_zero

theorem step_fetchPastTop (hs : Running s) (hpc : 2 ^ 32 < s.pc.toNat + 4) :
    step s = .refused .topOfMemory := by
  obtain ⟨href, hhalt⟩ := hs
  simp [step, controlStep, href, hhalt, fetch, memRead_pastTop hpc]

theorem step_of_halted (href : s.refusal = none) (hhalt : s.halted = true) : step s = .next s := by
  simp [step, controlStep, href, hhalt]

theorem step_of_refused {r : Refusal} (href : s.refusal = some r) : step s = .refused r := by
  simp [step, controlStep, href]

/-! ## Everything a running core's step can end in -/

/-- The outcomes of a running core's step. -/
inductive Stepped (s : State) : Host.Outcome State Fault Refusal → Prop where
  | fetchPastTop (hpc : 2 ^ 32 < s.pc.toNat + 4) : Stepped s (.refused .topOfMemory)
  | fetchOutside : Stepped s
      (.next (takeHalt .unknownFunct (some (.unknownFunct s.pc 0#32 0#6)) (report (.oorRead s.pc) s)))
  | unknownOpcode (w : Word) (op : BitVec 6) :
      Stepped s (.next (takeHalt .unknownOpcode (some (.unknownOpcode s.pc w op)) s))
  | unknownFunct (w : Word) (f : BitVec 6) :
      Stepped s (.next (takeHalt .unknownFunct (some (.unknownFunct s.pc w f)) s))
  | ran {o : Host.Outcome State Fault Refusal} (i : Instr)
      (hd : decodeWord (wordAt s.mem s.pc.toNat) = .ok i) (ho : Handled i s o) : Stepped s o

theorem step_running (hs : Running s) : Stepped s (step s) := by
  by_cases hpc : 2 ^ 32 < s.pc.toNat + 4
  · rw [step_fetchPastTop hs hpc]
    exact .fetchPastTop hpc
  by_cases hsize : s.mem.size < s.pc.toNat + 4
  · rw [step_fetchOutside hs (by omega) hsize]
    exact .fetchOutside
  have hf := fetch_inside (s := s) (by omega) (by omega)
  cases hd : decodeWord (wordAt s.mem s.pc.toNat) with
  | ok i =>
    rw [step_of_fetch hs.1 hs.2 hf hd, exec_of_wellFormed (wellFormed_of_decodeWord hd)]
    exact .ran i hd (handle_handled i s)
  | error u =>
    rw [step_of_unknown hs.1 hs.2 hf hd]
    cases u with
    | opcode op => exact .unknownOpcode _ op
    | funct f => exact .unknownFunct _ f

/-- A step that answers left a halted core alone or is a running core's step. -/
theorem step_next_cases (h : step s = .next t) :
    (s.refusal = none ∧ s.halted = true ∧ t = s) ∨ (Running s ∧ Stepped s (.next t)) := by
  obtain ⟨href, ⟨hhalt, heq⟩ | ⟨hrun, -⟩⟩ := step_next h
  · exact .inl ⟨href, hhalt, heq⟩
  · exact .inr ⟨⟨href, hrun⟩, h ▸ step_running ⟨href, hrun⟩⟩

/-! ## What every step keeps -/

theorem handled_keeps_params {i : Instr} (h : Handled i s (.next t)) :
    t.params = s.params ∧ t.refusal = s.refusal := by
  cases h <;> simp

theorem stepped_keeps_params (h : Stepped s (.next t)) : t.params = s.params ∧ t.refusal = s.refusal := by
  cases h with
  | ran i hd ho => exact handled_keeps_params ho
  | fetchOutside => simp
  | unknownOpcode => simp
  | unknownFunct => simp

/-- Only a store changes the memory, and a store stays below the top. -/
theorem handled_mem {i : Instr} (h : Handled i s (.next t)) :
    t.mem = s.mem ∨ (IsStore i ∧ ∃ (addr : Word) (bs : List Byte), addr.toNat + bs.length ≤ 2 ^ 32 ∧
      t.mem = storeBytes s.mem addr.toNat bs) := by
  cases h with
  | stored addr bs hi haddr => exact .inr ⟨hi, addr, bs, haddr, by simp⟩
  | moved => exact .inl (by simp)
  | wrote => exact .inl (by simp)
  | loadedOutside => exact .inl (by simp)
  | exited => exact .inl (by simp)
  | emitted => exact .inl (by simp)
  | reported => exact .inl (by simp)
  | misaligned => exact .inl (by simp)

theorem stepped_mem (h : Stepped s (.next t)) :
    t.mem = s.mem ∨ ((∃ i, decodeWord (wordAt s.mem s.pc.toNat) = .ok i ∧ IsStore i) ∧
      ∃ (addr : Word) (bs : List Byte), addr.toNat + bs.length ≤ 2 ^ 32 ∧
        t.mem = storeBytes s.mem addr.toNat bs) := by
  cases h with
  | ran i hd ho =>
    rcases handled_mem ho with hsame | ⟨hi, hstore⟩
    · exact .inl hsame
    · exact .inr ⟨⟨i, hd, hi⟩, hstore⟩
  | fetchOutside => exact .inl (by simp)
  | unknownOpcode => exact .inl (by simp)
  | unknownFunct => exact .inl (by simp)

theorem stepped_keeps_wf (hm : s.mem.wf) (h : Stepped s (.next t)) : t.mem.wf := by
  rcases stepped_mem h with hsame | ⟨-, addr, bs, haddr, hstore⟩
  · rwa [hsame]
  · rw [hstore]
    exact storeBytes_wf _ _ _ hm haddr

/-! ## The events and halts of a step (R205, R207) -/

/-- The events of a step that goes on. -/
inductive GoesOnWith (s : State) : List Event → Prop where
  | nothing : GoesOnWith s []
  | oorRead (a : Word) : GoesOnWith s [.diag (.oorRead a)]
  | console : GoesOnWith s [.console (readReg 0 s)]
  | unhandledSyscall (code : BitVec 18) : GoesOnWith s [.diag (.unhandledSyscall s.pc code)]

/-- The halt reasons of a step, each with its diagnostics. -/
inductive HaltsWith (s : State) : HaltReason → List Diag → Prop where
  | exit : HaltsWith s .syscallExit []
  | unknownOpcode (w : Word) (op : BitVec 6) : HaltsWith s .unknownOpcode [.unknownOpcode s.pc w op]
  | unknownFunct (w : Word) (f : BitVec 6) : HaltsWith s .unknownFunct [.unknownFunct s.pc w f]
  | fetchOutside : HaltsWith s .unknownFunct [.oorRead s.pc, .unknownFunct s.pc 0#32 0#6]
  | misaligned (v : Word) : HaltsWith s .misaligned [.misaligned s.pc v]

/-- How a step ends: it goes on with at most one event, or it is a halt and nothing else. -/
inductive Ends (s t : State) : Prop where
  | goesOn (es : List Event) (hes : GoesOnWith s es) (htrace : t.trace = s.trace ++ es)
      (hhalted : t.halted = s.halted) (hreason : t.haltReason = s.haltReason)
  | halts (r : HaltReason) (ds : List Diag) (hds : HaltsWith s r ds) (honly : OnlyHalts r ds s t)

theorem handled_ends {i : Instr} (h : Handled i s (.next t)) : Ends s t := by
  cases h with
  | moved a => exact .goesOn _ .nothing (by simp) (by simp) (by simp)
  | wrote => exact .goesOn _ .nothing (by simp) (by simp) (by simp)
  | stored => exact .goesOn _ .nothing (by simp) (by simp) (by simp)
  | loadedOutside d addr => exact .goesOn _ (.oorRead addr) (by simp) (by simp) (by simp)
  | emitted => exact .goesOn _ .console (by simp) (by simp) (by simp)
  | reported code => exact .goesOn _ (.unhandledSyscall code) (by simp) (by simp) (by simp)
  | exited => exact .halts _ _ .exit (takeHalt_onlyHalts _ none)
  | misaligned v => exact .halts _ _ (.misaligned v) (takeHalt_onlyHalts _ (some _))

/-- A halt after an out-of-range fetch has both diagnostics, and is a halt of the state before the fetch. -/
theorem takeHalt_report_onlyHalts (r : HaltReason) (d d' : Diag) :
    OnlyHalts r [d, d'] s (takeHalt r (some d') (report d s)) := by
  obtain ⟨hhalted, hreason, htrace, hpc, hregs, hmem, href, hparams⟩ :=
    takeHalt_onlyHalts (s := report d s) r (some d')
  refine ⟨hhalted, hreason, by simp, hpc, fun q hq => ?_, hmem, href, hparams⟩
  rw [hregs q hq, readReg_report]

theorem stepped_ends (h : Stepped s (.next t)) : Ends s t := by
  cases h with
  | ran i hd ho => exact handled_ends ho
  | fetchOutside => exact .halts _ _ .fetchOutside (takeHalt_report_onlyHalts ..)
  | unknownOpcode w op => exact .halts _ _ (.unknownOpcode w op) (takeHalt_onlyHalts _ (some _))
  | unknownFunct w f => exact .halts _ _ (.unknownFunct w f) (takeHalt_onlyHalts _ (some _))

/-- A halt reason is recorded exactly when the halted flag is set. -/
theorem ends_keeps_reason (hs : s.halted = s.haltReason.isSome) (h : Ends s t) :
    t.halted = t.haltReason.isSome := by
  cases h with
  | goesOn es hes htrace hhalted hreason => rw [hhalted, hreason, hs]
  | halts r ds hds honly =>
    obtain ⟨hhalted, hreason, -⟩ := honly
    rw [hhalted, hreason, Option.isSome_some]

/-! ## The reset state (R230) -/

theorem reset_running : Running State.reset := ⟨rfl, rfl⟩

theorem readReg_reset {i : Nat} (hi : i < 32) : readReg i State.reset = 0#32 := by
  simp [readReg_lt _ i hi, State.reset]

theorem byteAt_reset (a : Nat) : byteAt State.reset.mem a = 0#8 := rfl

end

/-! ## The obligations -/

/-- Settles O9: a store keeps the memory canonical, every end keeps the reason, and no step touches the mark. -/
theorem stepKeepsSoundness : Obligations.StepKeepsSoundness := by
  intro s t hs h
  obtain ⟨-, -, rfl⟩ | ⟨-, hstep⟩ := step_next_cases h
  · exact hs
  · exact
      { memory := stepped_keeps_wf hs.memory hstep
        reason := ends_keeps_reason hs.reason (stepped_ends hstep)
        mark := by rw [(stepped_keeps_params hstep).2]; exact hs.mark }

/-- Settles O12: the two kinds of end, constructor by constructor. -/
theorem oneStepMakesOneOfTheListedEvents : Obligations.OneStepMakesOneOfTheListedEvents := by
  intro s t hs h
  cases stepped_ends (h ▸ step_running hs) with
  | goesOn es hes htrace hhalted hreason =>
    refine ⟨es, htrace, .inl ⟨hhalted.trans hs.2, hreason, ?_⟩⟩
    cases hes with
    | nothing => exact .inl rfl
    | oorRead a => exact .inr (.inl ⟨a, rfl⟩)
    | console => exact .inr (.inr (.inl rfl))
    | unhandledSyscall code => exact .inr (.inr (.inr ⟨code, rfl⟩))
  | halts r ds hds honly =>
    obtain ⟨hhalted, hreason, htrace, -⟩ := honly
    refine ⟨_, htrace, .inr ⟨hhalted, ?_⟩⟩
    cases hds with
    | exit => exact .inl ⟨hreason, rfl⟩
    | unknownOpcode w op => exact .inr (.inl ⟨hreason, w, op, rfl⟩)
    | unknownFunct w f => exact .inr (.inr (.inl ⟨hreason, w, f, rfl⟩))
    | fetchOutside => exact .inr (.inr (.inr (.inl ⟨hreason, rfl⟩)))
    | misaligned v => exact .inr (.inr (.inr (.inr ⟨hreason, v, rfl⟩)))

/-- Settles O13: a step that halts ends as a halt and nothing else. -/
theorem haltIsPrecise : Obligations.HaltIsPrecise := by
  intro s t hs h hhalt
  cases stepped_ends (h ▸ step_running hs) with
  | goesOn es hes htrace hhalted hreason =>
    rw [hhalted, hs.2] at hhalt
    cases hhalt
  | halts r ds hds honly =>
    obtain ⟨-, hreason, -, hpc, hregs, hmem, -, hparams⟩ := honly
    exact ⟨by rw [hreason, Option.isSome_some], hregs, hmem, hparams, hpc⟩

/-- Settles O14: no outcome of a step touches the parameters or the mark, which is none before the step. -/
theorem stepKeepsTheParameters : Obligations.StepKeepsTheParameters := by
  intro s t h
  obtain ⟨href, -, rfl⟩ | ⟨⟨href, -⟩, hstep⟩ := step_next_cases h
  · exact ⟨rfl, href⟩
  · obtain ⟨hparams, hmark⟩ := stepped_keeps_params hstep
    exact ⟨hparams, hmark.trans href⟩

/-- Settles O18: the two refusals of a running core's step are the fetch's and the decoded instruction's. -/
theorem stepRefusesOnlyPastTheTop : Obligations.StepRefusesOnlyPastTheTop := by
  intro s e hs h
  cases h ▸ step_running hs with
  | fetchPastTop hpc => exact ⟨rfl, .inl hpc⟩
  | ran i hd ho =>
    cases ho with
    | refused hpast => exact ⟨rfl, .inr ⟨i, hd, hpast⟩⟩

/-- Settles O43: a step leaves the memory as it is or is one store by an ST or an STP, which never shrinks it. -/
theorem onlyStoresChangeTheMemory : Obligations.OnlyStoresChangeTheMemory := by
  intro s t h
  obtain ⟨-, -, rfl⟩ | ⟨-, hstep⟩ := step_next_cases h
  · exact ⟨Nat.le_refl _, fun hne => absurd rfl hne⟩
  · rcases stepped_mem hstep with hsame | ⟨hdecoded, addr, bs, -, hstore⟩
    · exact ⟨by rw [hsame], fun hne => absurd hsame hne⟩
    · exact ⟨by rw [hstore, storeBytes_size]; exact Nat.le_max_left .., fun _ => hdecoded⟩

/-- Settles O6: four existing bytes are the fetched word, so the step is `exec` of what they decode to. -/
theorem stepRunsTheDecodedInstruction : Obligations.StepRunsTheDecodedInstruction := by
  intro s i rest hs hpc hsize hbytes
  exact step_of_fetch hs.1 hs.2 (fetch_inside hpc hsize) (decodeWord_of_decodeBytes hbytes)

/-- Settles O7: out of range the fetch reports and gives the zero word, which halts. -/
theorem fetchPastTheEndHalts : Obligations.FetchPastTheEndHalts := by
  intro s hs hpc hsize
  exact ⟨_, step_fetchOutside hs hpc hsize, takeHalt_report_onlyHalts ..⟩

/-- Settles O8: the control unit looks at the mark, then at the halted flag, before it fetches. -/
theorem haltedAndRefusedCoresDoNothing : Obligations.HaltedAndRefusedCoresDoNothing :=
  fun _ => ⟨step_of_halted, fun _ => step_of_refused⟩

/-- Settles O10: the fields of the reset state. -/
theorem resetStateIsSound : Obligations.ResetStateIsSound :=
  ⟨⟨reset_memory_wf, rfl, .inl rfl⟩, rfl, rfl, rfl, rfl, rfl, byteAt_reset, fun _ => readReg_reset, rfl⟩

/-- Settles O52: the reset state runs, and its memory is empty. -/
theorem bootWithoutLoadHalts : Obligations.BootWithoutLoadHalts :=
  ⟨_, step_fetchOutside reset_running (by decide) (by decide), takeHalt_report_onlyHalts ..⟩

end Sys2Proof.Proofs
end

