-- ==== Sys2Proof/Proofs/HostOperations.lean ====
section
/-! PROOF. The host's operations (spec/10_state.md R41 to R47): register access, load, pc access, reset, step, run
under fuel, the read-outs, and what a halted, a refused and a freshly booted core do under them. -/

namespace Sys2Proof.Proofs

open Sys2Proof.Machine Sys2Proof.Laws

section
variable {s t : State}

/-! ## Registers (R43) -/

theorem hostGetReg_of_lt {i : Nat} (hi : i < 32) : hostGetReg i s = .ok (readReg i s) := by
  simp [hostGetReg, readReg, regGet, hi]

theorem hostGetReg_of_not_lt {i : Nat} (hi : ¬ i < 32) : hostGetReg i s = .error (.indexOutOfRange i) := by
  rw [hostGetReg, regGet_of_not_lt hi]

theorem hostSetReg_of_lt {i : Nat} (v : Word) (hi : i < 32) : hostSetReg i v s = .ok (writeReg i v s) := by
  rw [hostSetReg, regSet_of_lt hi, writeReg_eq s i v hi]

theorem hostSetReg_of_not_lt {i : Nat} (v : Word) (hi : ¬ i < 32) :
    hostSetReg i v s = .error (.indexOutOfRange i) := by
  rw [hostSetReg, regSet_of_not_lt hi]

/-! ## Load (R44) -/

theorem hostLoad_nil (base : Word) : hostLoad base [] s = .error .loadError := rfl

theorem hostLoad_pastTop {base : Word} {bytes : List Byte} (hne : bytes ≠ [])
    (h : 2 ^ 32 < base.toNat + bytes.length) : hostLoad base bytes s = .ok (markRefused .loadPastTop s) := by
  rw [hostLoad, if_neg (by rwa [List.length_eq_zero_iff]), if_pos h]

theorem hostLoad_below {base : Word} {bytes : List Byte} (hne : bytes ≠ [])
    (h : base.toNat + bytes.length ≤ 2 ^ 32) :
    hostLoad base bytes s = .ok { s with mem := storeBytes s.mem base.toNat bytes } := by
  rw [hostLoad, if_neg (by rwa [List.length_eq_zero_iff]), if_neg (Nat.not_lt.mpr h)]

/-! ## Step and run (R31, R36) -/

theorem hostStep_of_next (h : step s = .next t) : hostStep s = t := by
  rw [hostStep, h]

theorem hostStep_of_refused {r : Refusal} (h : step s = .refused r) : hostStep s = markRefused r s := by
  rw [hostStep, h]

@[simp] theorem hostRun_zero (s : State) : hostRun 0 s = s := rfl

theorem hostRun_succ_of_running (hs : Running s) (n : Nat) : hostRun (n + 1) s = hostRun n (hostStep s) := by
  obtain ⟨href, hhalt⟩ := hs
  rw [hostRun, href, hhalt]
  rfl

/-- A core that takes no further step: halted or refused (R36). -/
abbrev Stopped (s : State) : Prop := s.halted = true ∨ s.refusal.isSome = true

theorem running_or_stopped (s : State) : Running s ∨ Stopped s := by
  cases hhalt : s.halted <;> cases href : s.refusal <;> simp [Running, Stopped, hhalt, href]

theorem hostRun_of_stopped (hs : Stopped s) (n : Nat) : hostRun n s = s := by
  cases n with
  | zero => rfl
  | succ n => rw [hostRun, if_pos (by simpa using hs)]

theorem hostRun_add (m n : Nat) (s : State) : hostRun (m + n) s = hostRun n (hostRun m s) := by
  induction m generalizing s with
  | zero => rw [Nat.zero_add, hostRun_zero]
  | succ m ih =>
    rcases running_or_stopped s with hs | hs
    · rw [Nat.add_right_comm, hostRun_succ_of_running hs, ih, hostRun_succ_of_running hs]
    · rw [hostRun_of_stopped hs, hostRun_of_stopped hs, hostRun_of_stopped hs]

/-! ## Refused and halted cores -/

/-- Marking a core with the reason it already has changes nothing. -/
theorem markRefused_self {r : Refusal} (h : s.refusal = some r) : markRefused r s = s := by
  rw [markRefused, ← h]

theorem hostStep_of_marked (h : s.refusal.isSome = true) : hostStep s = s := by
  obtain ⟨r, hr⟩ := Option.isSome_iff_exists.mp h
  rw [hostStep_of_refused (step_of_refused hr), markRefused_self hr]

theorem hostStep_keeps_halted (h : s.halted = true) : (hostStep s).halted = true := by
  cases href : s.refusal with
  | none => rwa [hostStep_of_next (step_of_halted href h)]
  | some r => rwa [hostStep_of_marked (by rw [href, Option.isSome_some])]

theorem hostLoad_keeps_halted {base : Word} {bytes : List Byte} (h : hostLoad base bytes s = .ok t) :
    t.halted = s.halted := by
  obtain ⟨-, ⟨-, rfl⟩ | ⟨-, rfl⟩⟩ := hostLoad_ok h <;> rfl

/-- A load keeps the mark or sets its own over it (log 25). -/
theorem hostLoad_keeps_marked {base : Word} {bytes : List Byte} (h : hostLoad base bytes s = .ok t)
    (hs : s.refusal.isSome = true) : t.refusal.isSome = true := by
  obtain ⟨-, ⟨-, rfl⟩ | ⟨-, rfl⟩⟩ := hostLoad_ok h
  · rfl
  · exact hs

/-! ## The read-outs (R27, R28, R208) -/

theorem consoleText_emit (v : Word) : consoleText (emit v s) = consoleText s ++ consoleLine v := by
  simp [consoleText]

theorem diagnostics_emit (v : Word) : diagnostics (emit v s) = diagnostics s := by
  simp [diagnostics]

theorem consoleText_report (d : Diag) : consoleText (report d s) = consoleText s := by
  simp [consoleText]

theorem diagnostics_report (d : Diag) : diagnostics (report d s) = diagnostics s ++ [d] := by
  simp [diagnostics]

theorem consoleText_congr (h : t.trace = s.trace) : consoleText t = consoleText s := by
  rw [consoleText, h, consoleText]

theorem diagnostics_congr (h : t.trace = s.trace) : diagnostics t = diagnostics s := by
  rw [diagnostics, h, diagnostics]

theorem hostGetByte_of_lt {a : Word} (h : a.toNat < s.mem.size) :
    hostGetByte a s = some (byteAt s.mem a.toNat) := if_pos h

theorem hostGetByte_of_le {a : Word} (h : s.mem.size ≤ a.toNat) : hostGetByte a s = none :=
  if_neg (Nat.not_lt.mpr h)

/-- A load of one byte never passes the top, and the byte is read back. -/
theorem hostGetByte_of_hostLoad {a : Word} {b : Byte} (hm : s.mem.wf) (h : hostLoad a [b] s = .ok t) :
    hostGetByte a t = some b := by
  have ha := a.isLt
  obtain ⟨-, ⟨htop, -⟩ | ⟨-, rfl⟩⟩ := hostLoad_ok h
  · rw [List.length_singleton] at htop
    omega
  · rw [hostGetByte_of_lt (by simp)]
    exact congrArg some (byteAt_storeBytes_inside s.mem a.toNat 0 [b] hm Nat.one_pos)

/-! ## Boot (R234) -/

/-- A word that a store left alone in an empty memory is the zero word. -/
theorem wordAt_reset_storeBytes {base : Nat} (bytes : List Byte) (h : 4 ≤ base) :
    wordAt (storeBytes State.reset.mem base bytes) 0 = 0#32 := by
  have hzero : ∀ k, k < 4 → byteAt (storeBytes State.reset.mem base bytes) k = 0#8 := fun k hk => by
    rw [byteAt_storeBytes_outside _ _ _ _ (.inl (by omega)), byteAt_reset]
  rw [wordAt, hzero 0 (by decide), hzero (0 + 1) (by decide), hzero (0 + 2) (by decide),
    hzero (0 + 3) (by decide)]
  rfl

end

/-! ## The obligations -/

/-- Settles O46: the three cases of the load, the last of them one store. -/
theorem hostLoadCopiesTheBytes : Obligations.HostLoadCopiesTheBytes := by
  intro base bytes s
  refine ⟨fun hnil => hnil ▸ hostLoad_nil base, fun htop hne => hostLoad_pastTop hne htop,
    fun hne hbelow hm => ?_⟩
  refine ⟨_, hostLoad_below hne hbelow, storeBytes_wf _ _ _ hm hbelow, storeBytes_size .., fun k hk => ?_,
    fun k hk => byteAt_storeBytes_outside _ _ _ _ hk, fun k hsize hk => ?_, fun _ _ => readReg_congr rfl _,
    ⟨rfl, rfl, rfl, rfl⟩, rfl, rfl⟩
  · exact byteAt_storeBytes_inside _ _ _ _ hm hk
  · exact (byteAt_storeBytes_outside _ _ _ _ (.inl hk)).trans (byteAt_beyond _ _ hm hsize)

/-- Settles O49, by induction on the first run's fuel. -/
theorem runUnderFuelAddsUp : Obligations.RunUnderFuelAddsUp := by
  intro m n s
  refine ⟨hostRun_zero s, fun hs => hostRun_succ_of_running hs n, hostRun_add m n s, fun hstop => ?_⟩
  rw [hostRun_add, hostRun_of_stopped hstop]

/-- Settles O53: the image leaves the first word as the zero fill, which is in neither table. -/
theorem bootBelowTheImageHalts : Obligations.BootBelowTheImageHalts := by
  intro base bytes s hbase hbelow hload
  obtain ⟨-, ⟨htop, -⟩ | ⟨-, heq⟩⟩ := hostLoad_ok hload
  · omega
  · have hrun : Running s := by rw [heq]; exact reset_running
    have hpc : s.pc = 0#32 := by rw [heq]; rfl
    have hsize : 4 ≤ s.mem.size := by rw [heq, storeBytes_size]; omega
    have hword : wordAt s.mem 0 = 0#32 := by rw [heq]; exact wordAt_reset_storeBytes bytes hbase
    refine ⟨_, step_of_zeroWord hrun (by rw [hpc]; decide) (by rwa [hpc]) (by rwa [hpc]), ?_⟩
    rw [hpc]
    exact takeHalt_onlyHalts .unknownFunct (some _)

/-- Settles O58: step and run refuse again with the same mark, and only a clearing reset() removes it. -/
theorem refusedCoreStaysRefused : Obligations.RefusedCoreStaysRefused := by
  intro s hs
  refine ⟨hostStep_of_marked hs, hostRun_of_stopped (.inr hs), fun _ => rfl, fun i v t h => ?setReg,
    fun b bs t h => hostLoad_keeps_marked h hs, fun hkeep => ?reset⟩
  case setReg =>
    obtain ⟨-, rfl⟩ := hostSetReg_ok h
    exact writeReg_refusal ..
  case reset =>
    have hmark : (hostReset s).refusal = s.refusal := by rw [hostReset_refusal, hkeep]; rfl
    exact ⟨hmark, hostStep_of_marked (by rwa [hmark])⟩

/-- Settles O45: both operations check the index and then read or write the register. -/
theorem hostRegisterAccessIsChecked : Obligations.HostRegisterAccessIsChecked := by
  intro i v s
  refine ⟨fun hi => ⟨hostGetReg_of_lt hi, _, hostSetReg_of_lt v hi, ?_, fun j hj => ?_, ?_, ?_, ?_, ?_⟩,
    fun hi => ⟨hostGetReg_of_not_lt hi, hostSetReg_of_not_lt v hi⟩⟩
  · rw [hostGetReg_of_lt hi, readReg_writeReg_self s i v hi]
  · exact readReg_writeReg_ne s j i v (by simpa using hj)
  · exact writeReg_pc ..
  · exact writeReg_halted ..
  · exact writeReg_mem ..
  · exact writeReg_trace ..

/-- Settles O47: the fields of the state after reset(). -/
theorem resetClearsTheCore : Obligations.ResetClearsTheCore := by
  intro s
  refine ⟨fun i hi => ?regs, rfl, rfl, rfl, byteAt_reset, rfl, rfl, rfl, rfl, fun htrace hparams => ?fresh⟩
  case regs => rw [hostGetReg_of_lt hi, readReg_congr (s := State.reset) hostReset_regs i, readReg_reset hi]
  case fresh =>
    refine state_ext rfl rfl rfl rfl rfl htrace ?_ hparams
    rw [hostReset_refusal, hparams]
    rfl

/-- Settles O48: every operation but reset() leaves the halted flag alone. -/
theorem onlyResetLeavesTheHaltedState : Obligations.OnlyResetLeavesTheHaltedState := by
  intro s hs
  refine ⟨hostStep_keeps_halted hs, hostRun_of_stopped (.inl hs), fun _ => hs, fun i v t h => ?setReg,
    fun b bs t h => (hostLoad_keeps_halted h).trans hs, rfl⟩
  case setReg =>
    obtain ⟨-, rfl⟩ := hostSetReg_ok h
    exact (writeReg_halted ..).trans hs

/-- Settles O50: the refused step sets the mark, and a marked core stays as it is. -/
theorem refusalMarkStopsTheCore : Obligations.RefusalMarkStopsTheCore := by
  intro s r h
  have hmark : (hostStep s).refusal.isSome = true := by rw [hostStep_of_refused h]; rfl
  exact ⟨hostStep_of_refused h, hostStep_of_marked hmark, hostRun_of_stopped (.inr hmark)⟩

/-- Settles O54, by the definition of the host's step. -/
theorem hostStepTakesTheStep : Obligations.HostStepTakesTheStep :=
  fun _ _ => hostStep_of_next

/-- Settles O55: set_pc is an update of the pc alone, so every other field is the same. -/
theorem hostPcAccessIsUnchecked : Obligations.HostPcAccessIsUnchecked :=
  fun _ _ => ⟨rfl, rfl, fun _ _ => readReg_congr rfl _, ⟨rfl, fun _ => rfl⟩, ⟨rfl, rfl, rfl, rfl⟩, rfl, rfl, rfl⟩

/-- Settles O56: both read-outs go through the trace event by event. -/
theorem readOutsFollowTheTrace : Obligations.ReadOutsFollowTheTrace := by
  intro s v d
  refine ⟨fun hnil => ?_, consoleText_emit v, diagnostics_emit v, consoleText_report d, diagnostics_report d,
    fun t h => ⟨consoleText_congr h, diagnostics_congr h⟩⟩
  rw [consoleText, diagnostics, hnil]
  exact ⟨rfl, rfl⟩

/-- Settles O57: the register file has 32 entries, and entry `i` is x[i]. -/
theorem dumpHoldsThePcAndRegisters : Obligations.DumpHoldsThePcAndRegisters := by
  intro format s
  refine ⟨rfl, Vector.length_toList .., fun i hi => ?_, rfl⟩
  rw [dumpContent, Vector.getElem?_toList, Vector.getElem?_eq_getElem hi, readReg_lt s i hi]

/-- Settles O59: the read-out sees the memory alone, which a halt keeps and reset() empties. -/
theorem hostReadsTheMemory : Obligations.HostReadsTheMemory := by
  intro a s
  exact ⟨hostGetByte_of_lt, hostGetByte_of_le, fun _ => rfl, fun _ _ hm h => hostGetByte_of_hostLoad hm h,
    hostGetByte_of_le (Nat.zero_le _)⟩

end Sys2Proof.Proofs
end
